-- ==== Sys2Proof/Word.lean ====
section
/-! DEFINITION. The machine's words: bytes, 16-bit words, 12-bit addresses, and the 4-bit numbers 0 to 15 that name
registers and keys and count sprite rows (spec/00_scope.md R4, R6, R7; spec/30_encoding.md R72). -/

namespace Sys2Proof

/-- A byte: a general register, a timer, one memory cell (R4). -/
abbrev Byte := BitVec 8

/-- A 16-bit word: `I`, `pc`, a stack slot, an instruction word (R4). -/
abbrev Word := BitVec 16

/-- The 12-bit address field `nnn` of an instruction (R72). -/
abbrev Addr12 := BitVec 12

/-- A register number `x` or `y`, a key number, or a sprite height `n`: an unsigned number 0 to 15 (R72, R74). -/
abbrev Nib := Fin 16

/-- VF, general register 15, which doubles as the flag register (spec/10_state.md R21). -/
abbrev VF : Nib := 15

/-- The sixteen numbers 0 to 15 in rising order: every register number and every key number (R20, R29). -/
def allNibs : List Nib := [0, 1, 2, 3, 4, 5, 6, 7, 8, 9, 10, 11, 12, 13, 14, 15]

end Sys2Proof
end

