-- ==== Sys2Proof/Config.lean ====
section
/-! DEFINITION. The parameters of the implementation (spec/00_scope.md R4, R5) and the model's one free value, the random
byte. The glyph table GLYPHS stands in Machine/Ops.lean, beside the memory whose reset contents it is. -/

namespace Sys2Proof.Config

/-- `MEM_SIZE`, bytes of memory (R4). -/
def memSize : Nat := 4096

/-- `PROG_BASE`, where the program is loaded and the first cycle fetches (R4). -/
def progBase : Nat := 0x200

/-- The largest program `Load` takes: 0x200 to 0xFFF (R5, D20). -/
def maxProgram : Nat := 3584

/-- `RES`, the framebuffer's size: one of two, fixed when the instance is built (R5, D13). -/
inductive Resolution where
  /-- 64 columns, 32 rows: the base screen and the spec's default. -/
  | lores
  /-- 128 columns, 64 rows. -/
  | hires
  deriving DecidableEq, Repr

/-- `W`, the number of columns. -/
def Resolution.width : Resolution → Nat
  | .lores => 64
  | .hires => 128

/-- `H`, the number of rows. -/
def Resolution.height : Resolution → Nat
  | .lores => 32
  | .hires => 64

/-- FREE VALUE (log entry 2). The byte the environment answers to the `k`-th draw of the run: `rand()` of
spec/10_state.md R32, "a free input under no law". It has no body: nothing can be proved of it, so a statement
about a draw holds for every byte. Safe. -/
opaque randomByte : Nat → Byte

end Sys2Proof.Config
end

