-- ==== Sys2Proof/Machine/State.lean ====
section
/-! DEFINITION. The state of the core as spec/10_state.md and spec/20_memory.md give it, as plain data; what ends a step
other than a next state; and the state after reset. -/

namespace Sys2Proof.Machine

/-- The fatal conditions of spec/60_exceptions.md R170, with that rule's codes 1 to 4 in order. -/
inductive FaultKind where
  /-- 1: the fetched word is no instruction (R171). -/
  | unsupportedInstruction
  /-- 2: `2nnn` with `sp = 15` (R172). -/
  | stackOverflow
  /-- 3: `00EE` with `sp = 0` (R173). -/
  | stackUnderflow
  /-- 4: `Ex9E` or `ExA1` with `Vx > 15` (R174). -/
  | keyIndexOutOfRange
  deriving DecidableEq, Repr

/-- The fault record `f = (kind, w, at)` (spec/10_state.md R31). -/
structure FaultRecord where
  kind : FaultKind
  /-- `w`, the instruction word that faulted. -/
  word : Word
  /-- `at`, the address its first byte was fetched from. -/
  addr : Word
  deriving DecidableEq, Repr

/-- The control state `phase` (spec/10_state.md R30). -/
inductive Phase where
  /-- `READY`: the next ENGINE step is a `Cycle`. -/
  | ready
  /-- `WAITKEY(x)`: the next ENGINE step is a `Poll`. -/
  | waitKey (x : Nib)
  /-- `HALTED(f)`: the ENGINE has no step. -/
  | halted (f : FaultRecord)
  deriving DecidableEq, Repr

/-- The outcome of one ENGINE step (spec/00_scope.md R9, spec/10_state.md R33). -/
inductive EngineOutcome where
  /-- `Done(redraw)`. -/
  | completed (redraw : Bool)
  /-- `Waiting`. -/
  | waiting
  /-- `Fault(f)`. -/
  | faulted (f : FaultRecord)
  deriving DecidableEq, Repr

/-- One atomic step of one agent (spec/00_scope.md R10). -/
inductive AgentStep where
  /-- ENGINE: `Cycle` or `Poll`, as the phase says. -/
  | engine
  /-- TIMER_D: `TickDelay`. -/
  | tickDelay
  /-- TIMER_S: `TickSound`. -/
  | tickSound
  /-- INPUT: `SetKeys(k)`. -/
  | setKeys (k : BitVec 16)
  /-- HOST: `Reset`. -/
  | reset
  /-- HOST: `Load(bytes)`. -/
  | load (bytes : List Byte)
  deriving DecidableEq, Repr

/-- Memory: address and byte pairs, addresses rising, listing only bytes that differ from what an unlisted address
reads as (`unlisted` in Machine/Ops.lean, the reset contents). Which lists have that form is `Memory.wf`. -/
abbrev Memory := List Host.Cell

/-- The framebuffer's lit cells, each as its row-major number `y * W + x`, rising (log entry 20). A cell not listed is
off. Which lists have that form is `Screen.wf`. -/
abbrev Screen := List Nat

/-- The machine's state. Every field but the last six is the spec's (10_state.md R20 to R31, 20_memory.md R50). -/
structure State where
  /-- `V[0..15]` (R20, R21). -/
  V : Vector Byte 16
  /-- The index register `I` (R22). -/
  I : Word
  /-- The program counter (R23). -/
  pc : Word
  /-- The stack pointer: 8 bits, legal values 0 to 15 (R24). -/
  sp : Byte
  /-- `stack[0..15]` (R25). -/
  stack : Vector Word 16
  /-- The delay timer (R26). -/
  DT : Byte
  /-- The sound timer (R27). -/
  ST : Byte
  /-- The framebuffer (R28). -/
  FB : Screen
  /-- The memory (20_memory.md R50). -/
  mem : Memory
  /-- The key flags: bit `k` is `keys[k]` (R29, R186). -/
  keys : BitVec 16
  /-- The control state (R30), with the fault record (R31) in it. -/
  phase : Phase
  /-- MODEL'S OWN FIELD (log entry 5): the parameter `RES` (R5, D13), which no step changes. -/
  res : Config.Resolution
  /-- MODEL'S OWN FIELD (log entry 3): the outcome of the step that led here (R9, R33); none when that step was not the
  ENGINE's. -/
  outcome : Option EngineOutcome
  /-- MODEL'S OWN FIELD (log entry 15): a cycle has run since `Reset`, which R201 makes `Load` depend on. -/
  cycled : Bool
  /-- MODEL'S OWN FIELD (log entry 15): a `Load` has happened since `Reset`; it "happens once" (D20). -/
  loaded : Bool
  /-- MODEL'S OWN FIELD (log entry 2): how many random bytes have been drawn, the index of `Config.randomByte`. -/
  draws : Nat
  /-- MODEL'S OWN FIELD (log entry 1): the agent steps still to come, in order (R10, R11). When it is empty the ENGINE
  steps. -/
  schedule : List AgentStep
  deriving DecidableEq, Repr

/-- What ends the machine's run of steps. A fault of R170 is not among these: taking one is a next state. -/
inductive Fault where
  /-- Raised by the ENGINE's step in `HALTED(f)`: "In `HALTED` the ENGINE has no step" (R176; U17: stuck). Safe. -/
  | halted (f : FaultRecord)
  /-- Raised by `2nnn` and `00EE` when `sp` is above 15, a value it never holds (R24): the slot does not exist. No run
  from reset reaches it (log entry 13). Safe. -/
  | noStackSlot
  deriving DecidableEq, Repr

/-- What the model gives no meaning. -/
inductive Refusal where
  /-- Raised by an arm of `exec` whose instruction has no meaning yet; no arm does. Safe. -/
  | notModelled (mnemonic : String)
  /-- Raised by `Load` of more than 3584 bytes (R201, D20, U15: refuse). Safe. -/
  | loadTooLong
  /-- Raised by `Load` when the phase is not READY or a cycle has run since `Reset` (R201, D20, U15: refuse). Safe. -/
  | loadTooLate
  /-- Raised by a second `Load` since `Reset`: `Load` "happens once" (D20; spec/91_not_in_source.md N26). Safe. -/
  | loadTwice
  deriving DecidableEq, Repr

/-- The state after the `Reset` step (10_state.md R35, 70_reset_and_hazards.md R200). `pc`, memory and framebuffer are
the source's; the zeros of `V`, `I`, `sp`, the stack, the timers and the keys are the spec's own choice D6
(DESIGN CHOICE, log entry 6: unsafe, a proof can lean on a zero). The last six fields are the model's: the
resolution (log entry 5), no outcome (3), no cycle and no load yet (15), no byte drawn (2) and an empty schedule (1). -/
def State.reset : State where
  V := Vector.replicate 16 0#8
  I := 0x0000#16
  pc := 0x0200#16
  sp := 0#8
  stack := Vector.replicate 16 0#16
  DT := 0#8
  ST := 0#8
  FB := []
  mem := []
  keys := 0#16
  phase := .ready
  res := .lores
  outcome := none
  cycled := false
  loaded := false
  draws := 0
  schedule := []

end Sys2Proof.Machine
end

