-- ==== Sys2Proof/Machine/Ops.lean ====
section
/-! DEFINITION. The named operations over memory and registers, the completion of a cycle, and the taking of a fault
with the one way back from it. Every meaning reaches the state through these. -/

namespace Sys2Proof.Machine

/-- What a meaning and a step answer. -/
abbrev Result := Host.Outcome State Fault Refusal

/-! ### Memory -/

/-- GLYPHS (20_memory.md R53): row `d` holds the five bytes of digit `d`, top row first. Row 0 is the source's; rows 1 to
F are the conventional font, "from general knowledge, not in source" (PRESUMED, log entry 7: unsafe). -/
def glyphs : List (List Byte) :=
  [[0xF0, 0x90, 0x90, 0x90, 0xF0], [0x20, 0x60, 0x20, 0x20, 0x70], [0xF0, 0x10, 0xF0, 0x80, 0xF0],
   [0xF0, 0x10, 0xF0, 0x10, 0xF0], [0x90, 0x90, 0xF0, 0x10, 0x10], [0xF0, 0x80, 0xF0, 0x10, 0xF0],
   [0xF0, 0x80, 0xF0, 0x90, 0xF0], [0xF0, 0x10, 0x20, 0x40, 0x40], [0xF0, 0x90, 0xF0, 0x90, 0xF0],
   [0xF0, 0x90, 0xF0, 0x10, 0xF0], [0xF0, 0x90, 0xF0, 0x90, 0x90], [0xE0, 0x90, 0xE0, 0x90, 0xE0],
   [0xF0, 0x80, 0x80, 0x80, 0xF0], [0xE0, 0x90, 0x90, 0x90, 0xE0], [0xF0, 0x80, 0xF0, 0x80, 0xF0],
   [0xF0, 0x80, 0xF0, 0x80, 0x80]]

/-- What an unlisted address reads as: the reset contents of memory (R52, R200), `GLYPHS[d][r]` at `5 * d + r` and zero
above the table. -/
def unlisted (a : Nat) : Byte := (glyphs.getD (a / 5) []).getD (a % 5) 0

/-- The byte at a resolved address. -/
def Memory.read : Memory → Nat → Byte
  | [], a => unlisted a
  | (k, b) :: m, a => if k = a then b else Memory.read m a

/-- The memory with no entry for an address: it reads as at reset there. -/
def Memory.drop (m : Memory) (a : Nat) : Memory := m.filter fun c => c.1 != a

/-- An entry put in at its place in the rising order. -/
def Memory.put : Memory → Nat → Byte → Memory
  | [], a, b => [(a, b)]
  | (k, c) :: m, a, b => if a < k then (a, b) :: (k, c) :: m else (k, c) :: Memory.put m a b

/-- The memory after a byte is written at a resolved address; writing what an unlisted address reads as removes the
entry, so that equal memories are equal lists. -/
def Memory.write (m : Memory) (a : Nat) (b : Byte) : Memory :=
  if b = unlisted a then Memory.drop m a else Memory.put (Memory.drop m a) a b

/-- The canonical form from an address on: addresses rising, inside memory, no entry an unlisted address reads as. -/
def Memory.wfFrom : Nat → Memory → Bool
  | _, [] => true
  | lo, (k, b) :: m => decide (lo ≤ k) && decide (k < Config.memSize) && (b != unlisted k) && Memory.wfFrom (k + 1) m

/-- The canonical form of memory. -/
def Memory.wf (m : Memory) : Bool := Memory.wfFrom 0 m

/-- `resolve(addr) = addr mod 4096` (R51, the spec's own decision D1). -/
def resolve (addr : Nat) : Nat := addr % Config.memSize

/-- `MemRead(addr, 1)` (R51); `addr` is any natural number, so no sum is reduced before it is resolved. -/
def State.readByte (s : State) (addr : Nat) : Byte := Memory.read s.mem (resolve addr)

/-- `MemRead(addr, 2)`: first byte high, each byte resolved on its own (R51, R54). -/
def State.readWord (s : State) (addr : Nat) : Word := s.readByte addr ++ s.readByte (addr + 1)

/-- The state with another memory. -/
def State.setMem (s : State) (m : Memory) : State := { s with mem := m }

/-- `MemWrite(addr, 1, v)` (R51). -/
def State.writeByte (s : State) (addr : Nat) (v : Byte) : State := s.setMem (Memory.write s.mem (resolve addr) v)

/-- Bytes written from an address upwards, one after the other. -/
def State.writeBytes : State → Nat → List Byte → State
  | s, _, [] => s
  | s, addr, b :: bs => State.writeBytes (s.writeByte addr b) (addr + 1) bs

/-! ### Registers -/

/-- `V[r]` (R20): every register is readable, none is hard-wired. -/
def State.reg (s : State) (r : Nib) : Byte := s.V[r]

/-- `V[r] <- b` (R20). -/
def State.setReg (s : State) (r : Nib) (b : Byte) : State := { s with V := s.V.set r b }

/-- `I <- w` (R22). -/
def State.setI (s : State) (w : Word) : State := { s with I := w }

/-- `pc <- w` (R23): all 16 bits are kept, with no check of range or parity. -/
def State.setPc (s : State) (w : Word) : State := { s with pc := w }

/-- `sp <- b` (R24). -/
def State.setSp (s : State) (b : Byte) : State := { s with sp := b }

/-- The stack slot of a number, none where there is no such slot (R25: sixteen slots, 0 to 15). -/
def stackSlot (k : Nat) : Option Nib := if h : k < 16 then some ⟨k, h⟩ else none

/-- `stack[k]` (R25). -/
def State.slot (s : State) (k : Nib) : Word := s.stack[k]

/-- `stack[k] <- w` (R25). -/
def State.setSlot (s : State) (k : Nib) (w : Word) : State := { s with stack := s.stack.set k w }

/-- `DT <- b` (R26). -/
def State.setDT (s : State) (b : Byte) : State := { s with DT := b }

/-- `ST <- b` (R27). -/
def State.setST (s : State) (b : Byte) : State := { s with ST := b }

/-- The state with another framebuffer (R28). -/
def State.setFB (s : State) (f : Screen) : State := { s with FB := f }

/-- All sixteen key flags replaced (R29, R186). -/
def State.setKeys (s : State) (k : BitVec 16) : State := { s with keys := k }

/-- `keys[k]` (R29). -/
def State.key (s : State) (k : Nib) : Bool := s.keys.getLsbD k.val

/-- `phase <- p` (R30). -/
def State.setPhase (s : State) (p : Phase) : State := { s with phase := p }

/-- The outcome of the step recorded (R9). -/
def State.setOutcome (s : State) (o : Option EngineOutcome) : State := { s with outcome := o }

/-- The mark that a cycle has, or has not, run since `Reset` (R201). -/
def State.setCycled (s : State) (c : Bool) : State := { s with cycled := c }

/-- The mark that a `Load` has, or has not, happened since `Reset` (R201, D20). -/
def State.setLoaded (s : State) (c : Bool) : State := { s with loaded := c }

/-- The count of drawn random bytes (R32). -/
def State.setDraws (s : State) (n : Nat) : State := { s with draws := n }

/-- The agent steps still to come (R10, R11). -/
def State.setSchedule (s : State) (l : List AgentStep) : State := { s with schedule := l }

/-! ### The ends of a cycle -/

/-- The cycle completes: outcome `Done(redraw)` (R9, R33). -/
def State.finish (s : State) (redraw : Bool) : Result := .next (s.setOutcome (some (.completed redraw)))

/-- The cycle of a key wait has not completed: outcome `Waiting` (R9, R162). -/
def State.wait (s : State) : Result := .next (s.setOutcome (some .waiting))

/-- `at`, the address of the instruction whose cycle has advanced `pc`: two before it, modulo 65536 (R100). -/
def State.instrAddr (s : State) : Word := s.pc - 2#16

/-- `raise kind(w, at)`, the taking of a fault (60_exceptions.md R176, R177): `phase <- HALTED(kind, w, at)` and outcome
`Fault(f)`; `pc` keeps the advanced value and nothing else changes. A fault is a NEXT state (log entry 4). -/
def State.raise (s : State) (kind : FaultKind) (w : Word) : Result :=
  let f : FaultRecord := { kind := kind, word := w, addr := s.instrAddr }
  .next ((s.setPhase (.halted f)).setOutcome (some (.faulted f)))

/-- The `Reset` step (70_reset_and_hazards.md R200), "the only way out of `HALTED`" (R179: no instruction returns from a
fault). The resolution is not changed by it (R200); the count of draws and the schedule, the model's own, run on
(log entry 16). -/
def State.hostReset (s : State) : State :=
  { State.reset with res := s.res, draws := s.draws, schedule := s.schedule }

end Sys2Proof.Machine
end

