-- ==== Sys2Proof/Machine/Flags.lean ====
section
/-! DEFINITION. The flag computations: what VF receives from each instruction that writes it as a flag (10_state.md R21),
and the order of the flag write and the result write (41_alu.md R120). -/

namespace Sys2Proof.Machine

/-- A flag as VF holds it: 1 or 0. -/
def flagByte (c : Bool) : Byte := if c then 1#8 else 0#8

/-- Carry out of bit 7: the exact sum is above 255 (R127). -/
def carryFlag (p q : Byte) : Bool := decide (p.toNat + q.toNat > 255)

/-- The first operand is strictly the greater; equal operands give no flag (R128, R130). -/
def greaterFlag (p q : Byte) : Bool := decide (p.toNat > q.toNat)

/-- The bit a right shift pushes out, bit 0 (R129). -/
def lowBitFlag (p : Byte) : Bool := p.getLsbD 0

/-- The bit a left shift pushes out, bit 7 (R131). -/
def highBitFlag (p : Byte) : Bool := p.getLsbD 7

/-- The two writes of a flag-writing instruction: VF first, then `Vx`, so that with `x = F` the result stays (R120, the
spec's own decision D7, log entry 10). Both values were computed before either write. -/
def State.writeFlagged (s : State) (x : Nib) (flag : Bool) (result : Byte) : State :=
  (s.setReg VF (flagByte flag)).setReg x result

end Sys2Proof.Machine
end

