-- ==== Sys2Proof/Machine/Operands.lean ====
section
/-! DEFINITION. The operand forms: the one addressing mode (42_index_memory.md R146), the registers a transfer names
(R144, R145), widening (30_encoding.md R74), the blind skip (40_control_flow.md R105), the decimal split (R143), and the
key an instruction tests or waits for (44_keypad_timers.md R160, R167). -/

namespace Sys2Proof.Machine

/-- `EA(i) = I + i`, unreduced; the memory operations resolve it (R146, R51). -/
def State.ea (s : State) (i : Nat) : Nat := s.I.toNat + i

/-- `zext_16(nnn)` (R74). -/
def extAddr (nnn : Addr12) : Word := nnn.setWidth 16

/-- `zext_16(b)` (R74). -/
def extByte (b : Byte) : Word := b.setWidth 16

/-- A number 0 to 15 as a byte. -/
def nibByte (k : Nib) : Byte := BitVec.ofNat 8 k.val

/-- V0 to Vx, both ends in, in rising order (R144, R145). -/
def regsUpTo (x : Nib) : List Nib := allNibs.filter fun r => decide (r ≤ x)

/-- Skip the next instruction when the condition holds: two more on the advanced `pc`, modulo 65536; the skipped bytes
are neither fetched nor decoded (40_control_flow.md section 4). -/
def State.skipIf (s : State) (c : Bool) : State := if c then s.setPc (s.pc + 2#16) else s

/-- The hundreds, tens and ones of a byte, floor division (R143). -/
def decimalDigits (p : Byte) : List Byte :=
  [BitVec.ofNat 8 (p.toNat / 100), BitVec.ofNat 8 (p.toNat / 10 % 10), BitVec.ofNat 8 (p.toNat % 10)]

/-- `mem[I + r] <- V[r]` for the registers of a list, in its order (R144). -/
def State.storeRegs (s : State) : List Nib → State
  | [] => s
  | r :: rs => State.storeRegs (s.writeByte (s.ea r.val) (s.reg r)) rs

/-- `V[r] <- mem[I + r]` for the registers of a list, in its order (R145). -/
def State.loadRegs (s : State) : List Nib → State
  | [] => s
  | r :: rs => State.loadRegs (s.setReg r (s.readByte (s.ea r.val))) rs

/-- The key number in a byte, none above 15 (R160, R174). -/
def keyNumber (b : Byte) : Option Nib := if h : b.toNat < 16 then some ⟨b.toNat, h⟩ else none

/-- `firstkey(keys)`: the lowest-numbered key that is down, none when all are up (R167, the spec's own decision D10). -/
def State.firstKey (s : State) : Option Nib := allNibs.find? fun k => s.key k

end Sys2Proof.Machine
end

