-- ==== Sys2Proof/Machine/Alu.lean ====
section
/-! DEFINITION. The instructions that compute into a general register (41_alu.md R121 to R132). Source registers are read
before anything is written (R120); none writes `pc` or memory, none faults. -/

namespace Sys2Proof.Machine

/-- `6xkk` LD Vx, kk (R121). -/
def execLdImm (x : Nib) (kk : Byte) (s : State) : Result := (s.setReg x kk).finish false

/-- `7xkk` ADD Vx, kk (R122): modulo 256, no flag. -/
def execAddImm (x : Nib) (kk : Byte) (s : State) : Result := (s.setReg x (s.reg x + kk)).finish false

/-- `8xy0` LD Vx, Vy (R123). -/
def execLdReg (x y : Nib) (s : State) : Result := (s.setReg x (s.reg y)).finish false

/-- `8xy1` OR Vx, Vy (R124): VF untouched. -/
def execOrReg (x y : Nib) (s : State) : Result := (s.setReg x (s.reg x ||| s.reg y)).finish false

/-- `8xy2` AND Vx, Vy (R125): VF untouched. -/
def execAndReg (x y : Nib) (s : State) : Result := (s.setReg x (s.reg x &&& s.reg y)).finish false

/-- `8xy3` XOR Vx, Vy (R126): VF untouched. -/
def execXorReg (x y : Nib) (s : State) : Result := (s.setReg x (s.reg x ^^^ s.reg y)).finish false

/-- `8xy4` ADD Vx, Vy (R127). -/
def execAddReg (x y : Nib) (s : State) : Result :=
  (s.writeFlagged x (carryFlag (s.reg x) (s.reg y)) (s.reg x + s.reg y)).finish false

/-- `8xy5` SUB Vx, Vy (R128). -/
def execSub (x y : Nib) (s : State) : Result :=
  (s.writeFlagged x (greaterFlag (s.reg x) (s.reg y)) (s.reg x - s.reg y)).finish false

/-- `8xy6` SHR Vx (R129): `Vx` in place, `Vy` neither read nor written. -/
def execShr (x : Nib) (s : State) : Result :=
  (s.writeFlagged x (lowBitFlag (s.reg x)) (s.reg x >>> 1)).finish false

/-- `8xy7` SUBN Vx, Vy (R130). -/
def execSubn (x y : Nib) (s : State) : Result :=
  (s.writeFlagged x (greaterFlag (s.reg y) (s.reg x)) (s.reg y - s.reg x)).finish false

/-- `8xyE` SHL Vx (R131): `Vx` in place, `Vy` neither read nor written. -/
def execShl (x : Nib) (s : State) : Result :=
  (s.writeFlagged x (highBitFlag (s.reg x)) (s.reg x <<< 1)).finish false

/-- `rand()`: the next draw of the free byte (10_state.md R32; log entry 2). -/
def State.randomDraw (s : State) : Byte := Config.randomByte s.draws

/-- `Cxkk` RND Vx, kk (R132): one draw, masked. -/
def execRnd (x : Nib) (kk : Byte) (s : State) : Result :=
  ((s.setReg x (s.randomDraw &&& kk)).setDraws (s.draws + 1)).finish false

end Sys2Proof.Machine
end

