-- ==== Sys2Proof/Syntax.lean ====
section
/-! DEFINITION. The instruction set: one constructor per row of spec/opcode_table.json, in the table's order
(spec/30_encoding.md R76), and what decoding a word can answer. -/

namespace Sys2Proof

/-- The 35 instructions (R76). `x` and `y` are register numbers, `kk` a byte, `nnn` a 12-bit address, `n` a count of
rows, as R72 names the fields. SHR and SHL carry no `y`: R78 (b), "all 16 values of `y` give the same instruction". -/
inductive Instr where
  /-- `00E0` CLS. -/
  | cls
  /-- `00EE` RET. -/
  | ret
  /-- `0nnn` SYS nnn, every word of family 0 but `00E0` and `00EE`. -/
  | sys (nnn : Addr12)
  /-- `1nnn` JP nnn. -/
  | jp (nnn : Addr12)
  /-- `2nnn` CALL nnn. -/
  | call (nnn : Addr12)
  /-- `3xkk` SE Vx, kk. -/
  | seImm (x : Nib) (kk : Byte)
  /-- `4xkk` SNE Vx, kk. -/
  | sneImm (x : Nib) (kk : Byte)
  /-- `5xy0` SE Vx, Vy. -/
  | seReg (x y : Nib)
  /-- `6xkk` LD Vx, kk. -/
  | ldImm (x : Nib) (kk : Byte)
  /-- `7xkk` ADD Vx, kk. -/
  | addImm (x : Nib) (kk : Byte)
  /-- `8xy0` LD Vx, Vy. -/
  | ldReg (x y : Nib)
  /-- `8xy1` OR Vx, Vy. -/
  | orReg (x y : Nib)
  /-- `8xy2` AND Vx, Vy. -/
  | andReg (x y : Nib)
  /-- `8xy3` XOR Vx, Vy. -/
  | xorReg (x y : Nib)
  /-- `8xy4` ADD Vx, Vy. -/
  | addReg (x y : Nib)
  /-- `8xy5` SUB Vx, Vy. -/
  | sub (x y : Nib)
  /-- `8xy6` SHR Vx. -/
  | shr (x : Nib)
  /-- `8xy7` SUBN Vx, Vy. -/
  | subn (x y : Nib)
  /-- `8xyE` SHL Vx. -/
  | shl (x : Nib)
  /-- `9xy0` SNE Vx, Vy. -/
  | sneReg (x y : Nib)
  /-- `Annn` LD I, nnn. -/
  | ldI (nnn : Addr12)
  /-- `Bnnn` JP V0, nnn. -/
  | jpV0 (nnn : Addr12)
  /-- `Cxkk` RND Vx, kk. -/
  | rnd (x : Nib) (kk : Byte)
  /-- `Dxyn` DRW Vx, Vy, n. -/
  | drw (x y n : Nib)
  /-- `Ex9E` SKP Vx. -/
  | skp (x : Nib)
  /-- `ExA1` SKNP Vx. -/
  | sknp (x : Nib)
  /-- `Fx07` LD Vx, DT. -/
  | ldVxDT (x : Nib)
  /-- `Fx0A` LD Vx, K. -/
  | ldVxK (x : Nib)
  /-- `Fx15` LD DT, Vx. -/
  | ldDTVx (x : Nib)
  /-- `Fx18` LD ST, Vx. -/
  | ldSTVx (x : Nib)
  /-- `Fx1E` ADD I, Vx. -/
  | addI (x : Nib)
  /-- `Fx29` LD F, Vx. -/
  | ldF (x : Nib)
  /-- `Fx33` LD B, Vx. -/
  | ldB (x : Nib)
  /-- `Fx55` LD [I], Vx. -/
  | ldMemVx (x : Nib)
  /-- `Fx65` LD Vx, [I]. -/
  | ldVxMem (x : Nib)
  deriving DecidableEq, Repr

/-- Why bytes are no instruction: the rows of R77's table, and a byte list too short to hold a word. -/
inductive Reject where
  /-- `5xyd` with `d` not 0. -/
  | family5
  /-- `8xyd` with `d` one of 8, 9, A, B, C, D, F. -/
  | family8
  /-- `9xyd` with `d` not 0. -/
  | family9
  /-- `Exkk` with `kk` neither 9E nor A1. -/
  | familyE
  /-- `Fxkk` with `kk` none of the nine sub-opcodes. -/
  | familyF
  /-- Fewer than the two bytes every instruction has (R70). The machine's own fetch always has two. -/
  | truncated
  deriving DecidableEq, Repr

/-- What the decoder answers: "one of the 35 instructions or `illegal`" (R75), the latter with its reason. -/
inductive Decoded where
  | instr (i : Instr)
  | illegal (why : Reject)
  deriving DecidableEq, Repr

end Sys2Proof
end

