-- ==== Sys2Proof/Decode.lean ====
section
/-! DEFINITION. The decoder of spec/30_encoding.md (fields R72, procedure R75, illegal words R77), total on every word
and on every list of bytes, and after it the encoder, written from the patterns of R73 and R76. -/

namespace Sys2Proof

/-- `a = w[15:12]`, the family (R72). -/
def fieldA (w : Word) : Nib := (w.extractLsb' 12 4).toFin

/-- `x = w[11:8]` (R72). -/
def fieldX (w : Word) : Nib := (w.extractLsb' 8 4).toFin

/-- `y = w[7:4]` (R72). -/
def fieldY (w : Word) : Nib := (w.extractLsb' 4 4).toFin

/-- `n = d = w[3:0]` (R72). -/
def fieldN (w : Word) : Nib := (w.extractLsb' 0 4).toFin

/-- `kk = w[7:0]` (R72). -/
def fieldKK (w : Word) : Byte := w.extractLsb' 0 8

/-- `nnn = w[11:0]` (R72). -/
def fieldNNN (w : Word) : Addr12 := w.extractLsb' 0 12

/-- Family 0: the two exact words are tested first, every other word is SYS (R75). -/
def decode0 (w : Word) : Decoded :=
  if w = 0x00E0#16 then .instr .cls
  else if w = 0x00EE#16 then .instr .ret
  else .instr (.sys (fieldNNN w))

/-- Family 5: the low nibble must be 0 (R75, R77; the spec's own decision D8). -/
def decode5 (w : Word) : Decoded :=
  if fieldN w = 0 then .instr (.seReg (fieldX w) (fieldY w)) else .illegal .family5

/-- Family 8, by the low nibble (R75). SHR and SHL drop `y` (R78). -/
def decode8 (w : Word) : Decoded :=
  match (fieldN w).val with
  | 0x0 => .instr (.ldReg (fieldX w) (fieldY w))
  | 0x1 => .instr (.orReg (fieldX w) (fieldY w))
  | 0x2 => .instr (.andReg (fieldX w) (fieldY w))
  | 0x3 => .instr (.xorReg (fieldX w) (fieldY w))
  | 0x4 => .instr (.addReg (fieldX w) (fieldY w))
  | 0x5 => .instr (.sub (fieldX w) (fieldY w))
  | 0x6 => .instr (.shr (fieldX w))
  | 0x7 => .instr (.subn (fieldX w) (fieldY w))
  | 0xE => .instr (.shl (fieldX w))
  | _ => .illegal .family8

/-- Family 9: the low nibble must be 0 (R75, R77; the spec's own decision D8). -/
def decode9 (w : Word) : Decoded :=
  if fieldN w = 0 then .instr (.sneReg (fieldX w) (fieldY w)) else .illegal .family9

/-- Family E, by the low byte (R75). -/
def decodeE (w : Word) : Decoded :=
  if fieldKK w = 0x9E#8 then .instr (.skp (fieldX w))
  else if fieldKK w = 0xA1#8 then .instr (.sknp (fieldX w))
  else .illegal .familyE

/-- Family F, by the low byte (R75). -/
def decodeF (w : Word) : Decoded :=
  if fieldKK w = 0x07#8 then .instr (.ldVxDT (fieldX w))
  else if fieldKK w = 0x0A#8 then .instr (.ldVxK (fieldX w))
  else if fieldKK w = 0x15#8 then .instr (.ldDTVx (fieldX w))
  else if fieldKK w = 0x18#8 then .instr (.ldSTVx (fieldX w))
  else if fieldKK w = 0x1E#8 then .instr (.addI (fieldX w))
  else if fieldKK w = 0x29#8 then .instr (.ldF (fieldX w))
  else if fieldKK w = 0x33#8 then .instr (.ldB (fieldX w))
  else if fieldKK w = 0x55#8 then .instr (.ldMemVx (fieldX w))
  else if fieldKK w = 0x65#8 then .instr (.ldVxMem (fieldX w))
  else .illegal .familyF

/-- The decode procedure (R75): dispatch on the family nibble. -/
def decode (w : Word) : Decoded :=
  match (fieldA w).val with
  | 0x0 => decode0 w
  | 0x1 => .instr (.jp (fieldNNN w))
  | 0x2 => .instr (.call (fieldNNN w))
  | 0x3 => .instr (.seImm (fieldX w) (fieldKK w))
  | 0x4 => .instr (.sneImm (fieldX w) (fieldKK w))
  | 0x5 => decode5 w
  | 0x6 => .instr (.ldImm (fieldX w) (fieldKK w))
  | 0x7 => .instr (.addImm (fieldX w) (fieldKK w))
  | 0x8 => decode8 w
  | 0x9 => decode9 w
  | 0xA => .instr (.ldI (fieldNNN w))
  | 0xB => .instr (.jpV0 (fieldNNN w))
  | 0xC => .instr (.rnd (fieldX w) (fieldKK w))
  | 0xD => .instr (.drw (fieldX w) (fieldY w) (fieldN w))
  | 0xE => decodeE w
  | _ => decodeF w

/-- The word two bytes make: the first byte is the high one (spec/20_memory.md R54). -/
def wordOfBytes (b0 b1 : Byte) : Word := b0 ++ b1

/-- The first byte of a word as it lies in memory: its high byte (R54). -/
def highByte (w : Word) : Byte := w.extractLsb' 8 8

/-- The second byte of a word as it lies in memory: its low byte (R54). -/
def lowByte (w : Word) : Byte := w.extractLsb' 0 8

/-- Decoding the bytes that lie from an address on: two of them make the instruction word (R70, R71). -/
def decodeBytes : List Byte → Decoded
  | b0 :: b1 :: _ => decode (wordOfBytes b0 b1)
  | [_] => .illegal .truncated
  | [] => .illegal .truncated

/-- The four bits of a field that holds a number 0 to 15. -/
def nibBits (n : Nib) : BitVec 4 := BitVec.ofFin n

/-- Format A, `a nnn` (R73). -/
def encA (a : Nib) (nnn : Addr12) : Word := nibBits a ++ nnn

/-- Format XK, `a x kk` (R73); with a fixed `kk` it is format XF, `a x ff`. -/
def encXK (a x : Nib) (kk : Byte) : Word := nibBits a ++ nibBits x ++ kk

/-- Format XY, `a x y d` (R73); with `d` an operand it is format XYN. -/
def encXY (a x y d : Nib) : Word := nibBits a ++ nibBits x ++ nibBits y ++ nibBits d

/-- The word of an instruction (R73, R76). SHR and SHL take `y = 0`, as an assembler sets it (R80). -/
def encode : Instr → Word
  | .cls => 0x00E0#16
  | .ret => 0x00EE#16
  | .sys nnn => encA 0x0 nnn
  | .jp nnn => encA 0x1 nnn
  | .call nnn => encA 0x2 nnn
  | .seImm x kk => encXK 0x3 x kk
  | .sneImm x kk => encXK 0x4 x kk
  | .seReg x y => encXY 0x5 x y 0x0
  | .ldImm x kk => encXK 0x6 x kk
  | .addImm x kk => encXK 0x7 x kk
  | .ldReg x y => encXY 0x8 x y 0x0
  | .orReg x y => encXY 0x8 x y 0x1
  | .andReg x y => encXY 0x8 x y 0x2
  | .xorReg x y => encXY 0x8 x y 0x3
  | .addReg x y => encXY 0x8 x y 0x4
  | .sub x y => encXY 0x8 x y 0x5
  | .shr x => encXY 0x8 x 0x0 0x6
  | .subn x y => encXY 0x8 x y 0x7
  | .shl x => encXY 0x8 x 0x0 0xE
  | .sneReg x y => encXY 0x9 x y 0x0
  | .ldI nnn => encA 0xA nnn
  | .jpV0 nnn => encA 0xB nnn
  | .rnd x kk => encXK 0xC x kk
  | .drw x y n => encXY 0xD x y n
  | .skp x => encXK 0xE x 0x9E#8
  | .sknp x => encXK 0xE x 0xA1#8
  | .ldVxDT x => encXK 0xF x 0x07#8
  | .ldVxK x => encXK 0xF x 0x0A#8
  | .ldDTVx x => encXK 0xF x 0x15#8
  | .ldSTVx x => encXK 0xF x 0x18#8
  | .addI x => encXK 0xF x 0x1E#8
  | .ldF x => encXK 0xF x 0x29#8
  | .ldB x => encXK 0xF x 0x33#8
  | .ldMemVx x => encXK 0xF x 0x55#8
  | .ldVxMem x => encXK 0xF x 0x65#8

/-- The bytes of an instruction in memory order (R54). -/
def encodeBytes (i : Instr) : List Byte := [highByte (encode i), lowByte (encode i)]

/-- The opcode map of R76 as a table: the mask and the match of the row an instruction stands in. -/
def maskMatch : Instr → Word × Word
  | .cls => (0xFFFF, 0x00E0)
  | .ret => (0xFFFF, 0x00EE)
  | .sys _ => (0xF000, 0x0000)
  | .jp _ => (0xF000, 0x1000)
  | .call _ => (0xF000, 0x2000)
  | .seImm _ _ => (0xF000, 0x3000)
  | .sneImm _ _ => (0xF000, 0x4000)
  | .seReg _ _ => (0xF00F, 0x5000)
  | .ldImm _ _ => (0xF000, 0x6000)
  | .addImm _ _ => (0xF000, 0x7000)
  | .ldReg _ _ => (0xF00F, 0x8000)
  | .orReg _ _ => (0xF00F, 0x8001)
  | .andReg _ _ => (0xF00F, 0x8002)
  | .xorReg _ _ => (0xF00F, 0x8003)
  | .addReg _ _ => (0xF00F, 0x8004)
  | .sub _ _ => (0xF00F, 0x8005)
  | .shr _ => (0xF00F, 0x8006)
  | .subn _ _ => (0xF00F, 0x8007)
  | .shl _ => (0xF00F, 0x800E)
  | .sneReg _ _ => (0xF00F, 0x9000)
  | .ldI _ => (0xF000, 0xA000)
  | .jpV0 _ => (0xF000, 0xB000)
  | .rnd _ _ => (0xF000, 0xC000)
  | .drw _ _ _ => (0xF000, 0xD000)
  | .skp _ => (0xF0FF, 0xE09E)
  | .sknp _ => (0xF0FF, 0xE0A1)
  | .ldVxDT _ => (0xF0FF, 0xF007)
  | .ldVxK _ => (0xF0FF, 0xF00A)
  | .ldDTVx _ => (0xF0FF, 0xF015)
  | .ldSTVx _ => (0xF0FF, 0xF018)
  | .addI _ => (0xF0FF, 0xF01E)
  | .ldF _ => (0xF0FF, 0xF029)
  | .ldB _ => (0xF0FF, 0xF033)
  | .ldMemVx _ => (0xF0FF, 0xF055)
  | .ldVxMem _ => (0xF0FF, 0xF065)

/-- The instruction the decoder reads from a word numbered as spec/opcode_table.json numbers it: the word is laid out
as the hardware stores it, high byte first (R54), and given to `decodeBytes`; none where it is refused. -/
def decodeTableWord (nbits w : Nat) : Option Instr :=
  let word : Word := BitVec.ofNat 16 (w % 2 ^ nbits)
  match decodeBytes [highByte word, lowByte word] with
  | .instr i => some i
  | .illegal _ => none

end Sys2Proof
end

