-- ==== Sys2Proof/Machine/Control.lean ====
section
/-! DEFINITION. The control-flow instructions (40_control_flow.md R101 to R109). Each runs after the cycle's fetch and
advance, so `pc` already holds the address of the next sequential instruction (R100). -/

namespace Sys2Proof.Machine

/-- `0nnn` SYS nnn: no operation, `nnn` ignored (R101, R78). -/
def execSys (_nnn : Addr12) (s : State) : Result := s.finish false

/-- `00EE` RET (R102): underflow at `sp = 0` (R173), else the popped value to `pc` with all its 16 bits, the slot kept. -/
def execRet (s : State) : Result :=
  if s.sp = 0#8 then s.raise .stackUnderflow (encode .ret)
  else
    match stackSlot s.sp.toNat with
    | none => .fault .noStackSlot
    | some k => ((s.setPc (s.slot k)).setSp (s.sp - 1#8)).finish false

/-- `1nnn` JP nnn (R103). -/
def execJp (nnn : Addr12) (s : State) : Result := (s.setPc (extAddr nnn)).finish false

/-- `2nnn` CALL nnn (R104): overflow at `sp = 15` (R172), else the increment, then the push of the advanced `pc`, then the
jump. -/
def execCall (nnn : Addr12) (s : State) : Result :=
  if s.sp = 15#8 then s.raise .stackOverflow (encode (.call nnn))
  else
    match stackSlot (s.sp.toNat + 1) with
    | none => .fault .noStackSlot
    | some k => (((s.setSp (s.sp + 1#8)).setSlot k s.pc).setPc (extAddr nnn)).finish false

/-- `3xkk` SE Vx, kk (R105). -/
def execSeImm (x : Nib) (kk : Byte) (s : State) : Result := (s.skipIf (s.reg x == kk)).finish false

/-- `4xkk` SNE Vx, kk (R106). -/
def execSneImm (x : Nib) (kk : Byte) (s : State) : Result := (s.skipIf (s.reg x != kk)).finish false

/-- `5xy0` SE Vx, Vy (R107). -/
def execSeReg (x y : Nib) (s : State) : Result := (s.skipIf (s.reg x == s.reg y)).finish false

/-- `9xy0` SNE Vx, Vy (R108). -/
def execSneReg (x y : Nib) (s : State) : Result := (s.skipIf (s.reg x != s.reg y)).finish false

/-- `Bnnn` JP V0, nnn (R109): the sum is kept in 16 bits, not reduced to 12. -/
def execJpV0 (nnn : Addr12) (s : State) : Result := (s.setPc (extAddr nnn + extByte (s.reg 0))).finish false

end Sys2Proof.Machine
end

