-- ==== Sys2Proof/Machine/Display.lean ====
section
/-! DEFINITION. The drawing unit and the two display instructions (43_display.md R150 to R154). -/

namespace Sys2Proof.Machine

/-- Is a cell, given by its row-major number, lit? -/
def Screen.lit (f : Screen) (c : Nat) : Bool := f.elem c

/-- A cell put in at its place in the rising order. -/
def Screen.put : Screen → Nat → Screen
  | [], c => [c]
  | d :: f, c => if c < d then c :: d :: f else d :: Screen.put f c

/-- One cell toggled: a lit one goes off, an unlit one goes on. -/
def Screen.toggle (f : Screen) (c : Nat) : Screen :=
  if Screen.lit f c then f.filter fun d => d != c else Screen.put f c

/-- The canonical form from a cell on: numbers rising and below a bound. -/
def Screen.wfFrom (bound : Nat) : Nat → Screen → Bool
  | _, [] => true
  | lo, c :: f => decide (lo ≤ c) && decide (c < bound) && Screen.wfFrom bound (c + 1) f

/-- The canonical form of the framebuffer of a resolution: rising numbers of cells it has. -/
def Screen.wf (r : Config.Resolution) (f : Screen) : Bool := Screen.wfFrom (r.width * r.height) 0 f

/-- The cell a requested position addresses: `FB[cy mod H][cx mod W]`, as its row-major number (R150). -/
def cellOf (r : Config.Resolution) (cx cy : Nat) : Nat := (cy % r.height) * r.width + cx % r.width

/-- `FB[y][x]`, for `x < W` and `y < H` (10_state.md R28); a position outside wraps, as a draw's does. -/
def State.pixel (s : State) (x y : Nat) : Bool := Screen.lit s.FB (cellOf s.res x y)

/-- `set_pixel(cx, cy)`: toggle one cell and report whether it was on (R151). -/
def setPixel (r : Config.Resolution) (f : Screen) (cx cy : Nat) : Screen × Bool :=
  (Screen.toggle f (cellOf r cx cy), Screen.lit f (cellOf r cx cy))

/-- The columns 0 to 7 of a row whose bit is 1; the most significant bit is column 0 (R152). -/
def rowColumns (byte : Byte) : List Nat := [0, 1, 2, 3, 4, 5, 6, 7].filter fun col => byte.getLsbD (7 - col)

/-- The positions of a sprite's 1 bits, top to bottom and left to right, from a position on (R152). -/
def spritePixels (cx : Nat) : Nat → List Byte → List (Nat × Nat)
  | _, [] => []
  | cy, byte :: bytes => (rowColumns byte).map (fun col => (cx + col, cy)) ++ spritePixels cx (cy + 1) bytes

/-- `set_pixel` at each position of a list, the collisions ORed together (R152). -/
def setPixels (r : Config.Resolution) : Screen × Bool → List (Nat × Nat) → Screen × Bool
  | acc, [] => acc
  | acc, p :: ps =>
    let hit := setPixel r acc.1 p.1 p.2
    setPixels r (hit.1, acc.2 || hit.2) ps

/-- `write_sprite(cx, cy, bytes)` (R152). -/
def writeSprite (r : Config.Resolution) (f : Screen) (cx cy : Nat) (bytes : List Byte) : Screen × Bool :=
  setPixels r (f, false) (spritePixels cx cy bytes)

/-- The `n` bytes of a sprite at `I` (R154). -/
def State.spriteBytes (s : State) (n : Nat) : List Byte := (List.range n).map fun row => s.readByte (s.ea row)

/-- `00E0` CLS (R153): every pixel off, no draw request. -/
def execCls (s : State) : Result := (s.setFB []).finish false

/-- `Dxyn` DRW Vx, Vy, n (R154): coordinates are read before VF is written (the spec's own decision D25), VF is always
written, and the draw request is made whether or not a pixel changed. -/
def execDrw (x y n : Nib) (s : State) : Result :=
  let drawn := writeSprite s.res s.FB (s.reg x).toNat (s.reg y).toNat (s.spriteBytes n.val)
  ((s.setFB drawn.1).setReg VF (flagByte drawn.2)).finish true

end Sys2Proof.Machine
end

