-- ==== Sys2Proof/Machine/IndexMem.lean ====
section
/-! DEFINITION. The index-register and memory instructions (42_index_memory.md R140 to R145). No transfer changes `I`
(R146, the spec's own decision D18), and none can fault (R51). -/

namespace Sys2Proof.Machine

/-- `Annn` LD I, nnn (R140). -/
def execLdI (nnn : Addr12) (s : State) : Result := (s.setI (extAddr nnn)).finish false

/-- `Fx1E` ADD I, Vx (R141): modulo 65536, no flag. -/
def execAddI (x : Nib) (s : State) : Result := (s.setI (s.I + extByte (s.reg x))).finish false

/-- `Fx29` LD F, Vx (R142): `I = Vx * 5` for every byte; nothing is masked and nothing faults. -/
def execLdF (x : Nib) (s : State) : Result := (s.setI (extByte (s.reg x) * 5#16)).finish false

/-- `Fx33` LD B, Vx (R143): hundreds, tens, ones at `I`, `I + 1`, `I + 2`. -/
def execLdB (x : Nib) (s : State) : Result :=
  (s.writeBytes (s.ea 0) (decimalDigits (s.reg x))).finish false

/-- `Fx55` LD [I], Vx (R144). -/
def execLdMemVx (x : Nib) (s : State) : Result := (s.storeRegs (regsUpTo x)).finish false

/-- `Fx65` LD Vx, [I] (R145). -/
def execLdVxMem (x : Nib) (s : State) : Result := (s.loadRegs (regsUpTo x)).finish false

end Sys2Proof.Machine
end

