-- ==== Sys2Proof/Machine/KeyTimer.lean ====
section
/-! DEFINITION. The keypad and timer instructions and the `Poll` step (44_keypad_timers.md R160 to R167). -/

namespace Sys2Proof.Machine

/-- `Ex9E` SKP Vx (R160): a key number above 15 faults (R174, the spec's own decision D9). -/
def execSkp (x : Nib) (s : State) : Result :=
  match keyNumber (s.reg x) with
  | none => s.raise .keyIndexOutOfRange (encode (.skp x))
  | some k => (s.skipIf (s.key k)).finish false

/-- `ExA1` SKNP Vx (R161): a key number above 15 faults (R174, the spec's own decision D9). -/
def execSknp (x : Nib) (s : State) : Result :=
  match keyNumber (s.reg x) with
  | none => s.raise .keyIndexOutOfRange (encode (.sknp x))
  | some k => (s.skipIf (!s.key k)).finish false

/-- `Fx0A` LD Vx, K (R162): a key already down completes at once; with none the phase becomes `WAITKEY(x)`. -/
def execLdVxK (x : Nib) (s : State) : Result :=
  match s.firstKey with
  | some k => (s.setReg x (nibByte k)).finish false
  | none => (s.setPhase (.waitKey x)).wait

/-- The `Poll` step in `WAITKEY(x)` (R163): no fetch, `pc` does not move. -/
def poll (x : Nib) (s : State) : Result :=
  match s.firstKey with
  | some k => ((s.setReg x (nibByte k)).setPhase .ready).finish false
  | none => s.wait

/-- `Fx07` LD Vx, DT (R164). -/
def execLdVxDT (x : Nib) (s : State) : Result := (s.setReg x s.DT).finish false

/-- `Fx15` LD DT, Vx (R165). -/
def execLdDTVx (x : Nib) (s : State) : Result := (s.setDT (s.reg x)).finish false

/-- `Fx18` LD ST, Vx (R166). -/
def execLdSTVx (x : Nib) (s : State) : Result := (s.setST (s.reg x)).finish false

end Sys2Proof.Machine
end

