-- ==== Sys2Proof/Machine/Env.lean ====
section
/-! DEFINITION. The steps of the agents around the ENGINE (60_exceptions.md R183, R186; 70_reset_and_hazards.md R200,
R201) and what the HOST may read (R175, R188, R209). None of these steps has an ENGINE outcome. -/

namespace Sys2Proof.Machine

/-- One down, never below zero (R183). -/
def countDown (b : Byte) : Byte := if b = 0#8 then b else b - 1#8

/-- `TickDelay` (R183). -/
def State.tickDelay (s : State) : State := (s.setDT (countDown s.DT)).setOutcome none

/-- `TickSound` (R183). -/
def State.tickSound (s : State) : State := (s.setST (countDown s.ST)).setOutcome none

/-- `SetKeys(k)`: all sixteen flags at once (R186). -/
def State.inputKeys (s : State) (k : BitVec 16) : State := (s.setKeys k).setOutcome none

/-- `Load(bytes)` (R201): refused when too long, when the phase is not READY or a cycle has run since `Reset`, and when it
has already happened since `Reset` (D20, "happens once"; 91_not_in_source.md N26, "one load"). -/
def State.hostLoad (s : State) (bytes : List Byte) : Result :=
  if bytes.length > Config.maxProgram then .refused .loadTooLong
  else if s.phase = .ready ∧ s.cycled = false then
    if s.loaded = false then .next (((s.writeBytes Config.progBase bytes).setLoaded true).setOutcome none)
    else .refused .loadTwice
  else .refused .loadTooLate

/-- The glyph lookup of the surrounding software (R175): the five bytes of a digit, none, the recoverable
`OutOfRangeGlyph`, above 15. It reads the table, changes no state, and no instruction calls it. -/
def glyphLookup (d : Nat) : Option (List Byte) := if d ≤ 15 then some (glyphs.getD d []) else none

/-- The renderer's read-only view: the rows of the framebuffer, top to bottom, each left to right (R188). -/
def State.displayView (s : State) : List (List Bool) :=
  (List.range s.res.height).map fun y => (List.range s.res.width).map fun x => s.pixel x y

/-- One turn of the reference host loop (R209): keys, one ENGINE step, then the ticks that are due. -/
def hostLoopTurn (k : BitVec 16) (delayDue soundDue : Bool) : List AgentStep :=
  [.setKeys k, .engine] ++ (if delayDue then [.tickDelay] else []) ++ (if soundDue then [.tickSound] else [])

end Sys2Proof.Machine
end

