-- ==== Sys2Proof/Machine/Engine.lean ====
section
/-! DEFINITION. The ENGINE's step (40_control_flow.md R100, 44_keypad_timers.md R163, 60_exceptions.md R176) and the step
of any agent (00_scope.md R10, R11). -/

namespace Sys2Proof.Machine

/-- `w = MemRead(pc, 2)`, the fetched word (R71, R100). -/
def State.fetchWord (s : State) : Word := s.readWord s.pc.toNat

/-- The bytes the fetch reads, in memory order (R71). -/
def State.fetchBytes (s : State) : List Byte := [s.readByte s.pc.toNat, s.readByte (s.pc.toNat + 1)]

/-- The advance before dispatch: `pc <- (at + 2) mod 65536` (R100), and the mark that a cycle has run (R201). -/
def State.advance (s : State) : State := (s.setPc (s.pc + 2#16)).setCycled true

/-- The `Cycle` step: fetch, advance, decode, then the Operation; an illegal word raises `UnsupportedInstruction`
(R100, R171). -/
def cycle (s : State) : Result :=
  match decodeBytes s.fetchBytes with
  | .instr i => exec i s.advance
  | .illegal _ => s.advance.raise .unsupportedInstruction s.fetchWord

/-- The ENGINE's step in each phase (R10, R30); in `HALTED(f)` there is none (R176, R179). -/
def engineStep (s : State) : Result :=
  match s.phase with
  | .ready => cycle s
  | .waitKey x => poll x s
  | .halted f => .fault (.halted f)

/-- One atomic step of one agent (R10). -/
def agentStep (a : AgentStep) (s : State) : Result :=
  match a with
  | .engine => engineStep s
  | .tickDelay => .next s.tickDelay
  | .tickSound => .next s.tickSound
  | .setKeys k => .next (s.inputKeys k)
  | .reset => .next s.hostReset
  | .load bytes => s.hostLoad bytes

/-- The next step of the machine: the schedule's first agent step, taken off it; with an empty schedule, the ENGINE's
(R11; log entry 1). -/
def nextStep (s : State) : Result :=
  match s.schedule with
  | [] => engineStep s
  | a :: rest => agentStep a (s.setSchedule rest)

/-- The schedule under which the very next step is the ENGINE's and the steps still to come follow it. -/
def engineFirst (l : List AgentStep) : List AgentStep :=
  match l with
  | [] => []
  | a :: rest => .engine :: a :: rest

/-- A state with a word stored where the ENGINE fetches next, high byte first (R54), in the phase and with the schedule
under which the next step runs it. -/
def State.placeWord (s : State) (w : Word) : State :=
  (((s.writeBytes s.pc.toNat [highByte w, lowByte w]).setPhase .ready).setSchedule (engineFirst s.schedule))

end Sys2Proof.Machine
end

