-- ==== Sys2Proof/Machine/Step.lean ====
section
/-! DEFINITION. The machine's step, and the placing of an instruction where it fetches next. -/

namespace Sys2Proof.Machine

/-- One step of the machine: one atomic step of one agent (spec/00_scope.md R10, R11). -/
def step (s : State) : Host.Outcome State Fault Refusal := Sys2Proof.Machine.nextStep s

/-- The state with the instruction of a table word stored where `step` fetches its next instruction (log entry 19). -/
def State.withFetchWord (s : State) (nbits w : Nat) : State :=
  Sys2Proof.Machine.State.placeWord s (BitVec.ofNat 16 (w % 2 ^ nbits))

end Sys2Proof.Machine
end

