-- ==== Sys2Proof/Safety.lean ====
section
/-! DEFINITION. The terms claims are stated in: the invariant of every reachable state, how a run ends (70_reset_and_hazards.md
R204), what an instruction may write (10_state.md, the summary of its state), and the cells a sprite covers (43_display.md
R155). -/

namespace Sys2Proof.Machine

/-- In `HALTED(f)` the program counter is two past the faulting instruction (60_exceptions.md R177). -/
def haltedPc (s : State) : Bool :=
  match s.phase with
  | .ready => true
  | .waitKey _ => true
  | .halted f => s.pc == f.addr + 2#16

/-- What holds of every reachable state: memory and framebuffer in canonical form, so no listed address is outside 0 to 4095
and no lit cell outside the screen; `sp` between 0 and 15 (10_state.md R24); a phase other than READY only after a cycle
(R30); memory as reset left it until the load or the first cycle (70_reset_and_hazards.md R201: what a load does not cover
keeps its reset value); and the pc of a halted machine (60_exceptions.md R177). -/
abbrev StateInv (s : State) : Prop :=
  Memory.wf s.mem = true ∧ Screen.wf s.res s.FB = true ∧ s.sp.toNat ≤ 15 ∧
    (s.phase ≠ .ready → s.cycled = true) ∧ (s.cycled = false → s.loaded = false → s.mem = []) ∧ haltedPc s = true

/-- The next step is the ENGINE's, and `rest` is what the schedule holds after it (00_scope.md R11; log entry 1). -/
abbrev EngineNext (s : State) (rest : List AgentStep) : Prop :=
  (s.schedule = [] ∧ rest = []) ∨ s.schedule = .engine :: rest

/-- Parked: READY, and the next instruction is a jump to itself (R204 (a)). -/
abbrev Parked (s : State) : Prop :=
  s.phase = .ready ∧ s.pc.toNat ≤ 0x0FFF ∧ s.fetchWord = 0x1000#16 ||| s.pc

/-- The general registers an instruction may write: its destinations, and VF where its rule names VF (10_state.md R20,
R21). -/
def destRegs : Instr → List Nib
  | .ldImm x _ => [x]
  | .addImm x _ => [x]
  | .ldReg x _ => [x]
  | .orReg x _ => [x]
  | .andReg x _ => [x]
  | .xorReg x _ => [x]
  | .addReg x _ => [x, VF]
  | .sub x _ => [x, VF]
  | .shr x => [x, VF]
  | .subn x _ => [x, VF]
  | .shl x => [x, VF]
  | .rnd x _ => [x]
  | .drw _ _ _ => [VF]
  | .ldVxDT x => [x]
  | .ldVxK x => [x]
  | .ldVxMem x => regsUpTo x
  | .cls => []
  | .ret => []
  | .sys _ => []
  | .jp _ => []
  | .call _ => []
  | .seImm _ _ => []
  | .sneImm _ _ => []
  | .seReg _ _ => []
  | .sneReg _ _ => []
  | .ldI _ => []
  | .jpV0 _ => []
  | .skp _ => []
  | .sknp _ => []
  | .ldDTVx _ => []
  | .ldSTVx _ => []
  | .addI _ => []
  | .ldF _ => []
  | .ldB _ => []
  | .ldMemVx _ => []

/-- The addresses an instruction stores a byte to, unreduced: only `Fx33` and `Fx55` store (20_memory.md R61). -/
def storeAddrs (i : Instr) (s : State) : List Nat :=
  match i with
  | .ldB _ => [s.ea 0, s.ea 1, s.ea 2]
  | .ldMemVx x => (regsUpTo x).map fun r => s.ea r.val
  | _ => []

/-- The instructions that write the index register (10_state.md R22). -/
def writesI : Instr → Bool
  | .ldI _ => true
  | .addI _ => true
  | .ldF _ => true
  | _ => false

/-- The instructions that touch `sp` or the stack (10_state.md R24, R25). -/
def usesStack : Instr → Bool
  | .call _ => true
  | .ret => true
  | _ => false

/-- The instructions that write the framebuffer (10_state.md R28). -/
def writesScreen : Instr → Bool
  | .cls => true
  | .drw _ _ _ => true
  | _ => false

/-- The conditional skips (40_control_flow.md R110). -/
def isSkip : Instr → Bool
  | .seImm _ _ => true
  | .sneImm _ _ => true
  | .seReg _ _ => true
  | .sneReg _ _ => true
  | .skp _ => true
  | .sknp _ => true
  | _ => false

/-- A SYS word (30_encoding.md R76: its row excludes two words). -/
def isSys : Instr → Bool
  | .sys _ => true
  | _ => false

/-- The shifts, whose word has a field that is decoded but ignored (30_encoding.md R78 (b)). -/
def isShift : Instr → Bool
  | .shr _ => true
  | .shl _ => true
  | _ => false

/-- The sprite `Dxyn` draws from a state covers a cell: some 1 bit of its `n` bytes at `I` falls on column `px`, row `py`
(43_display.md R150, R152, R155 (c): `mask(s)`). -/
def Covers (s : State) (x y n : Nib) (px py : Nat) : Prop :=
  ∃ row col : Nat, row < n.val ∧ col < 8 ∧ (s.readByte (s.I.toNat + row)).getLsbD (7 - col) = true ∧
    px = ((s.reg x).toNat + col) % s.res.width ∧ py = ((s.reg y).toNat + row) % s.res.height

/-- Nothing differs between two states but what each of a cycle's frames names: the parts no instruction writes
(10_state.md R29, R34; the schedule and the marks of the model's own). -/
abbrev KeepsInputs (s t : State) : Prop :=
  t.keys = s.keys ∧ t.res = s.res ∧ t.cycled = s.cycled ∧ t.loaded = s.loaded ∧ t.schedule = s.schedule

/-- The memory reads the same everywhere. -/
abbrev KeepsMemory (s t : State) : Prop := ∀ a, t.readByte a = s.readByte a

/-- `sp` and every stack slot are the same. -/
abbrev KeepsStack (s t : State) : Prop := t.sp = s.sp ∧ ∀ k, t.slot k = s.slot k

/-- Both timers are the same. -/
abbrev KeepsTimers (s t : State) : Prop := t.DT = s.DT ∧ t.ST = s.ST

/-- Every general register not in a list is the same. -/
abbrev KeepsRegsBut (l : List Nib) (s t : State) : Prop := ∀ r, r ∉ l → t.reg r = s.reg r

end Sys2Proof.Machine
end

