-- ==== Sys2Proof/Certificates/Slice0/Obligations.lean ====
section
/-! DEFINITION. The statements for the provers, each a claim of spec/ about the machine. A clause that rests on a choice the
spec marks as its own (a decision D<n>) or on a choice of the model names it and its log entry. Fault-taking and waiting
forms have statements of their own beside the completion of the instruction. -/

open Sys2Proof Sys2Proof.Machine

/-! ### Encoding -/

/-- Decoding the word, or the bytes, of a well-formed instruction gives it back: no operand bit is dropped
(30_encoding.md R72, R73, R75, R76). -/
def Obligations.DecodeOfEncodeIsTheInstruction : Prop :=
  ∀ i, wellFormed i = true → decode (encode i) = .instr i ∧ decodeBytes (encodeBytes i) = .instr i

/-- A word that decodes is well formed and encodes back to itself; for SHR and SHL, whose `y` is ignored (R78 (b)) and
assembled as 0 (R80, D23), to itself with `y` cleared. -/
def Obligations.EncodeOfDecodeIsTheWord : Prop :=
  ∀ w i, decode w = .instr i →
    wellFormed i = true ∧ encode i = if isShift i then w &&& 0xFF0F#16 else w

/-- The opcode map: a word is an instruction of a row exactly when it has the row's match under the row's mask, and, in
the row of `0nnn`, is neither of the two exact words (R76). -/
def Obligations.DecodeFollowsTheOpcodeMap : Prop :=
  ∀ w j,
    (w &&& (maskMatch j).1 = (maskMatch j).2 ∧ (isSys j = true → w ≠ 0x00E0#16 ∧ w ≠ 0x00EE#16)) ↔
      ∃ i, decode w = .instr i ∧ maskMatch i = maskMatch j

/-- The illegal words are exactly those of the table of R77; that `5xyd` and `9xyd` are among them is the spec's own
decision D8 (log entry 25). -/
def Obligations.IllegalWordsAreTheTable : Prop :=
  ∀ w, (∃ why, decode w = .illegal why) ↔
    (fieldA w = 0x5 ∧ fieldN w ≠ 0) ∨
    (fieldA w = 0x8 ∧ fieldN w ∈ [0x8, 0x9, 0xA, 0xB, 0xC, 0xD, 0xF]) ∨
    (fieldA w = 0x9 ∧ fieldN w ≠ 0) ∨
    (fieldA w = 0xE ∧ fieldKK w ∉ [0x9E#8, 0xA1#8]) ∨
    (fieldA w = 0xF ∧
      fieldKK w ∉ [0x07#8, 0x0A#8, 0x15#8, 0x18#8, 0x1E#8, 0x29#8, 0x33#8, 0x55#8, 0x65#8])

/-- The bits that are decoded but do not affect the result: `nnn` of SYS, `y` of SHR and SHL, and no other (R78). -/
def Obligations.OnlySysAndShiftsIgnoreBits : Prop :=
  (∀ m n s, exec (.sys m) s = exec (.sys n) s) ∧
  (∀ x y, decode (encXY 0x8 x y 0x6) = .instr (.shr x) ∧ decode (encXY 0x8 x y 0xE) = .instr (.shl x)) ∧
  (∀ w w' i, decode w = .instr i → decode w' = .instr i → isShift i = false → w = w')

/-- One word of every family, written out from the spec's own vectors (95_test_vectors.md S1, V1, V2, V4 to V9). -/
def Obligations.SpecWordsDecode : Prop :=
  decode 0x00E0#16 = .instr .cls ∧ decode 0x1228#16 = .instr (.jp 0x228#12) ∧
  decode 0x220A#16 = .instr (.call 0x20A#12) ∧ decode 0x332A#16 = .instr (.seImm 3 0x2A#8) ∧
  decode 0x432A#16 = .instr (.sneImm 3 0x2A#8) ∧ decode 0x5120#16 = .instr (.seReg 1 2) ∧
  decode 0x600A#16 = .instr (.ldImm 0 0x0A#8) ∧ decode 0x7220#16 = .instr (.addImm 2 0x20#8) ∧
  decode 0x8AB4#16 = .instr (.addReg 0xA 0xB) ∧ decode 0x9AB0#16 = .instr (.sneReg 0xA 0xB) ∧
  decode 0xA300#16 = .instr (.ldI 0x300#12) ∧ decode 0xBFFF#16 = .instr (.jpV0 0xFFF#12) ∧
  decode 0xC00F#16 = .instr (.rnd 0 0x0F#8) ∧ decode 0xD005#16 = .instr (.drw 0 0 5) ∧
  decode 0xE7A1#16 = .instr (.sknp 7) ∧ decode 0xF955#16 = .instr (.ldMemVx 9)

/-! ### Fetch and step -/

/-- The fetched word: the byte at `pc` is its high byte, the byte at `pc + 1` its low byte, each address resolved modulo
4096 on its own, at every `pc` (R71); and it is what the decoder is given. -/
def Obligations.FetchTakesTheFirstByteHigh : Prop :=
  ∀ s : State,
    s.fetchWord.extractLsb' 8 8 = Memory.read s.mem (s.pc.toNat % 4096) ∧
    s.fetchWord.extractLsb' 0 8 = Memory.read s.mem ((s.pc.toNat + 1) % 4096) ∧
    decodeBytes s.fetchBytes = decode s.fetchWord

/-- When the ENGINE steps in READY and the bytes at `pc` decode to an instruction, the step is `exec` of it on the state
with `pc` advanced by 2 modulo 65536 (40_control_flow.md R100). The step also takes the ENGINE's turn off the schedule and
marks that a cycle has run: the model's own fields (log entries 1, 15). -/
def Obligations.StepRunsTheDecodedInstruction : Prop :=
  ∀ s rest i, EngineNext s rest → s.phase = .ready →
    decodeBytes [s.readByte s.pc.toNat, s.readByte (s.pc.toNat + 1)] = .instr i →
      step s = exec i { s with pc := s.pc + 2#16, cycled := true, schedule := rest }

/-- When they decode to no instruction, the step takes `UnsupportedInstruction`: phase HALTED with the word and the
address it was fetched from, `pc` advanced, nothing else changed (60_exceptions.md R171, R176; the record and the kept
advance are the spec's own decision D5, log entries 4, 14). -/
def Obligations.IllegalWordHalts : Prop :=
  ∀ s rest why, EngineNext s rest → s.phase = .ready →
    decodeBytes [s.readByte s.pc.toNat, s.readByte (s.pc.toNat + 1)] = .illegal why →
      ∃ f : FaultRecord, f.kind = .unsupportedInstruction ∧ f.word = s.fetchWord ∧ f.addr = s.pc ∧
        step s = .next { s with pc := s.pc + 2#16, cycled := true, schedule := rest, phase := .halted f, outcome := some (.faulted f) }

/-- A store is seen by the very next fetch: when `Fx55` has stored two registers over the bytes at the next `pc`, the word
fetched there is made of them (20_memory.md R60, the spec's own decision D17, log entry 24). -/
def Obligations.StoreIsSeenByTheNextFetch : Prop :=
  ∀ (x r q : Nib) (s t : State), exec (.ldMemVx x) s = .next t → q ≤ x → q.val = r.val + 1 →
    t.pc.toNat % 4096 = (s.I.toNat + r.val) % 4096 → t.fetchWord = s.reg r ++ s.reg q

/-! ### Control flow -/

/-- SYS does nothing but complete its cycle: `pc` keeps the advanced value (R101). -/
def Obligations.SysIsNoOperation : Prop :=
  ∀ nnn s, exec (.sys nnn) s = .next { s with outcome := some (.completed false) }

/-- JP: `pc` is `nnn`, any of its 4096 values, no register and no stack slot changes; and a jump to itself is a fixed
point of the machine (R103; `cycled`, `schedule` and `outcome` are the model's own, log entries 1, 3, 15). -/
def Obligations.JumpGoesToItsAddress : Prop :=
  (∀ (nnn : Addr12) (s : State), ∃ t, exec (.jp nnn) s = .next t ∧ t.pc.toNat = nnn.toNat ∧
    KeepsRegsBut [] s t ∧ KeepsStack s t ∧ t.outcome = some (.completed false)) ∧
  (∀ (s : State) (rest : List AgentStep) (nnn : Addr12), EngineNext s rest → s.phase = .ready →
    decode s.fetchWord = .instr (.jp nnn) → s.pc.toNat = nnn.toNat →
      step s = .next { s with cycled := true, schedule := rest, outcome := some (.completed false) })

/-- JP V0: `pc` is `nnn + V0`, kept above 0xFFF (R109; the unreduced width is the spec's own decision D29, log entry
18). -/
def Obligations.IndexedJumpAddsV0 : Prop :=
  ∀ (nnn : Addr12) (s : State), ∃ t, exec (.jpV0 nnn) s = .next t ∧
    t.pc.toNat = nnn.toNat + (s.reg 0).toNat ∧ KeepsRegsBut [] s t ∧ KeepsStack s t ∧
    t.outcome = some (.completed false)

/-- CALL below depth 15: `sp` up by one, the advanced `pc` into the new top slot and no other, then `pc = nnn` (R104). -/
def Obligations.CallPushesTheReturnAddress : Prop :=
  ∀ (nnn : Addr12) (s : State), s.sp.toNat < 15 → ∃ t, ∃ k : Nib, exec (.call nnn) s = .next t ∧
    k.val = s.sp.toNat + 1 ∧ t.sp.toNat = s.sp.toNat + 1 ∧ t.slot k = s.pc ∧
    (∀ j, j ≠ k → t.slot j = s.slot j) ∧ t.pc.toNat = nnn.toNat ∧ KeepsRegsBut [] s t ∧
    t.outcome = some (.completed false)

/-- RET with a return address outstanding: all 16 bits of the top slot to `pc`, `sp` down by one, no slot changed
(R102). -/
def Obligations.ReturnPopsTheTopSlot : Prop :=
  ∀ (s : State) (k : Nib), s.sp.toNat = k.val → k ≠ 0 → ∃ t, exec .ret s = .next t ∧ t.pc = s.slot k ∧
    t.sp.toNat + 1 = s.sp.toNat ∧ (∀ j, t.slot j = s.slot j) ∧ KeepsRegsBut [] s t ∧
    t.outcome = some (.completed false)

/-- A return with the stack the matching call left goes to the address after the call and restores `sp` (R110). -/
def Obligations.ReturnUndoesTheCall : Prop :=
  ∀ (nnn : Addr12) (s t u : State), s.sp.toNat < 15 → exec (.call nnn) s = .next t → u.sp = t.sp →
    (∀ k, u.slot k = t.slot k) → ∃ v, exec .ret u = .next v ∧ v.pc = s.pc ∧ v.sp = s.sp

/-- CALL at `sp = 15` takes `StackOverflow` and RET at `sp = 0` takes `StackUnderflow`: HALTED with the instruction's word
and address, nothing else changed (60_exceptions.md R172, R173, R177; the spec's own decisions D4, D5, log entries 4,
21). -/
def Obligations.StackFaultsHalt : Prop :=
  (∀ (nnn : Addr12) (s : State), s.sp = 15#8 → ∃ f : FaultRecord, f.kind = .stackOverflow ∧
    f.word = 0x2#4 ++ nnn ∧ f.addr + 2#16 = s.pc ∧
    exec (.call nnn) s = .next { s with phase := .halted f, outcome := some (.faulted f) }) ∧
  (∀ s : State, s.sp = 0#8 → ∃ f : FaultRecord, f.kind = .stackUnderflow ∧ f.word = 0x00EE#16 ∧
    f.addr + 2#16 = s.pc ∧ exec .ret s = .next { s with phase := .halted f, outcome := some (.faulted f) })

/-- SE and SNE with an immediate, at address `A`: `A + 4` when taken, `A + 2` when not, modulo 65536; SE skips exactly when
SNE does not; no register changes (R105, R106). -/
def Obligations.ImmediateSkipsAreComplements : Prop :=
  ∀ (x : Nib) (kk : Byte) (s : State) (A : Word), s.pc = A + 2#16 →
    ∃ t u, exec (.seImm x kk) s = .next t ∧ exec (.sneImm x kk) s = .next u ∧
      t.pc = (if s.reg x = kk then A + 4#16 else A + 2#16) ∧
      u.pc = (if s.reg x = kk then A + 2#16 else A + 4#16) ∧
      KeepsRegsBut [] s t ∧ KeepsRegsBut [] s u ∧
      t.outcome = some (.completed false) ∧ u.outcome = some (.completed false)

/-- SE and SNE of two registers, likewise; with `x = y` SE always skips and SNE never (R107, R108). -/
def Obligations.RegisterSkipsAreComplements : Prop :=
  ∀ (x y : Nib) (s : State) (A : Word), s.pc = A + 2#16 →
    ∃ t u, exec (.seReg x y) s = .next t ∧ exec (.sneReg x y) s = .next u ∧
      t.pc = (if s.reg x = s.reg y then A + 4#16 else A + 2#16) ∧
      u.pc = (if s.reg x = s.reg y then A + 2#16 else A + 4#16) ∧
      (x = y → t.pc = A + 4#16 ∧ u.pc = A + 2#16) ∧
      KeepsRegsBut [] s t ∧ KeepsRegsBut [] s u ∧
      t.outcome = some (.completed false) ∧ u.outcome = some (.completed false)

/-! ### Arithmetic and logic -/

/-- LD Vx, kk and LD Vx, Vy: the destination takes the value, every other register keeps its own (41_alu.md R121,
R123). -/
def Obligations.LoadsWriteTheirDestination : Prop :=
  ∀ (x y : Nib) (kk : Byte) (s : State), ∃ t u,
    exec (.ldImm x kk) s = .next t ∧ (∀ r, t.reg r = if r = x then kk else s.reg r) ∧
    exec (.ldReg x y) s = .next u ∧ (∀ r, u.reg r = if r = x then s.reg y else s.reg r) ∧
    t.outcome = some (.completed false) ∧ u.outcome = some (.completed false)

/-- ADD Vx, kk: the sum modulo 256; no other register changes, VF included (R122). -/
def Obligations.AddImmediateWraps : Prop :=
  ∀ (x : Nib) (kk : Byte) (s : State), ∃ t, exec (.addImm x kk) s = .next t ∧
    (t.reg x).toNat = ((s.reg x).toNat + kk.toNat) % 256 ∧ KeepsRegsBut [x] s t ∧
    t.outcome = some (.completed false)

/-- OR, AND and XOR, bit by bit; no other register changes, VF included (R124, R125, R126). -/
def Obligations.LogicIsBitwise : Prop :=
  ∀ (x y : Nib) (s : State), ∃ t u v,
    exec (.orReg x y) s = .next t ∧ exec (.andReg x y) s = .next u ∧ exec (.xorReg x y) s = .next v ∧
    (∀ k < 8, (t.reg x).getLsbD k = ((s.reg x).getLsbD k || (s.reg y).getLsbD k) ∧
      (u.reg x).getLsbD k = ((s.reg x).getLsbD k && (s.reg y).getLsbD k) ∧
      (v.reg x).getLsbD k = ((s.reg x).getLsbD k ^^ (s.reg y).getLsbD k)) ∧
    KeepsRegsBut [x] s t ∧ KeepsRegsBut [x] s u ∧ KeepsRegsBut [x] s v ∧
    t.outcome = some (.completed false) ∧ u.outcome = some (.completed false) ∧
    v.outcome = some (.completed false)

/-- ADD Vx, Vy: the sum modulo 256 in `Vx`, also where `x` is VF; otherwise VF is 1 exactly when the sum is above 255
(R127). -/
def Obligations.AddSetsCarry : Prop :=
  ∀ (x y : Nib) (s : State), ∃ t, exec (.addReg x y) s = .next t ∧
    (t.reg x).toNat = ((s.reg x).toNat + (s.reg y).toNat) % 256 ∧
    (x ≠ VF → t.reg VF = if (s.reg x).toNat + (s.reg y).toNat > 255 then 1#8 else 0#8) ∧
    KeepsRegsBut [x, VF] s t ∧ t.outcome = some (.completed false)

/-- SUB and SUBN: the difference modulo 256 in `Vx`, also where `x` is VF; otherwise VF is 1 exactly when the minuend is
strictly the greater, so equal operands give 0 (R128, R130). -/
def Obligations.SubtractFlagIsStrict : Prop :=
  ∀ (x y : Nib) (s : State), ∃ t u, exec (.sub x y) s = .next t ∧ exec (.subn x y) s = .next u ∧
    (t.reg x).toNat = ((s.reg x).toNat + 256 - (s.reg y).toNat) % 256 ∧
    (u.reg x).toNat = ((s.reg y).toNat + 256 - (s.reg x).toNat) % 256 ∧
    (x ≠ VF → t.reg VF = (if (s.reg x).toNat > (s.reg y).toNat then 1#8 else 0#8) ∧
      u.reg VF = if (s.reg y).toNat > (s.reg x).toNat then 1#8 else 0#8) ∧
    KeepsRegsBut [x, VF] s t ∧ KeepsRegsBut [x, VF] s u ∧
    t.outcome = some (.completed false) ∧ u.outcome = some (.completed false)

/-- SHR and SHL by one, in place, whatever the word's `y`: half and twice the value modulo 256, also where `x` is VF;
otherwise VF is the bit shifted out (R129, R131). -/
def Obligations.ShiftsMoveOneBit : Prop :=
  (∀ x y, decode (encXY 0x8 x y 0x6) = .instr (.shr x) ∧ decode (encXY 0x8 x y 0xE) = .instr (.shl x)) ∧
  (∀ (x : Nib) (s : State), ∃ t u, exec (.shr x) s = .next t ∧ exec (.shl x) s = .next u ∧
    (t.reg x).toNat = (s.reg x).toNat / 2 ∧ (u.reg x).toNat = (2 * (s.reg x).toNat) % 256 ∧
    (x ≠ VF → (t.reg VF).toNat = (s.reg x).toNat % 2 ∧ (u.reg VF).toNat = (s.reg x).toNat / 128) ∧
    KeepsRegsBut [x, VF] s t ∧ KeepsRegsBut [x, VF] s u ∧
    t.outcome = some (.completed false) ∧ u.outcome = some (.completed false))

/-- The identities of the flag laws, for `x` not VF: the flag and the result together are the exact result (R134). -/
def Obligations.FlagAndResultAreExact : Prop :=
  ∀ (x y : Nib) (s : State), x ≠ VF →
    (∀ t, exec (.addReg x y) s = .next t →
      256 * (t.reg VF).toNat + (t.reg x).toNat = (s.reg x).toNat + (s.reg y).toNat) ∧
    (∀ t, exec (.sub x y) s = .next t → t.reg VF = 1#8 →
      (t.reg x).toNat + (s.reg y).toNat = (s.reg x).toNat) ∧
    (∀ t, exec (.subn x y) s = .next t → t.reg VF = 1#8 →
      (t.reg x).toNat + (s.reg x).toNat = (s.reg y).toNat) ∧
    (∀ t, exec (.shr x) s = .next t → 2 * (t.reg x).toNat + (t.reg VF).toNat = (s.reg x).toNat) ∧
    (∀ t, exec (.shl x) s = .next t → 256 * (t.reg VF).toNat + (t.reg x).toNat = 2 * (s.reg x).toNat)

/-- RND: the byte drawn, whatever it is, masked by `kk`; a bit that is 0 in `kk` is 0 in the result; one byte is drawn
(R132; the free byte is log entry 2, the spec's own decision D15). -/
def Obligations.RandomByteIsMasked : Prop :=
  ∀ (x : Nib) (kk : Byte) (s : State), ∃ t, exec (.rnd x kk) s = .next t ∧
    t.reg x = Config.randomByte s.draws &&& kk ∧ (∀ k, kk.getLsbD k = false → (t.reg x).getLsbD k = false) ∧
    t.draws = s.draws + 1 ∧ KeepsRegsBut [x] s t ∧ t.outcome = some (.completed false)

/-! ### Index register and memory -/

/-- LD I, nnn: `I` is `nnn`, its high four bits 0, and no register changes (42_index_memory.md R140). -/
def Obligations.LoadIndexTakesTheAddress : Prop :=
  ∀ (nnn : Addr12) (s : State), ∃ t, exec (.ldI nnn) s = .next t ∧ t.I.toNat = nnn.toNat ∧
    KeepsRegsBut [] s t ∧ t.outcome = some (.completed false)

/-- ADD I, Vx is modulo 65536 and LD F, Vx is five times the whole byte; neither changes a register, VF included (R141,
R142; the widths and the case above 15 are the spec's own decisions D3, D12, log entries 18, 22). -/
def Obligations.IndexArithmetic : Prop :=
  ∀ (x : Nib) (s : State), ∃ t u, exec (.addI x) s = .next t ∧ exec (.ldF x) s = .next u ∧
    t.I.toNat = (s.I.toNat + (s.reg x).toNat) % 65536 ∧ u.I.toNat = 5 * (s.reg x).toNat ∧
    KeepsRegsBut [] s t ∧ KeepsRegsBut [] s u ∧
    t.outcome = some (.completed false) ∧ u.outcome = some (.completed false)

/-- LD B, Vx: hundreds, tens and ones to `I`, `I + 1`, `I + 2`, each resolved modulo 4096; no other byte, no register and
not `I` changes (R143). -/
def Obligations.DecimalDigitsAreStored : Prop :=
  ∀ (x : Nib) (s : State), ∃ t, exec (.ldB x) s = .next t ∧
    (Memory.read t.mem (s.I.toNat % 4096)).toNat = (s.reg x).toNat / 100 ∧
    (Memory.read t.mem ((s.I.toNat + 1) % 4096)).toNat = (s.reg x).toNat / 10 % 10 ∧
    (Memory.read t.mem ((s.I.toNat + 2) % 4096)).toNat = (s.reg x).toNat % 10 ∧
    (∀ a, a % 4096 ≠ s.I.toNat % 4096 → a % 4096 ≠ (s.I.toNat + 1) % 4096 → a % 4096 ≠ (s.I.toNat + 2) % 4096 →
      t.readByte a = s.readByte a) ∧
    t.I = s.I ∧ KeepsRegsBut [] s t ∧ t.outcome = some (.completed false)

/-- LD [I], Vx: V0 to Vx, both ends in, to the bytes from `I` up, resolved modulo 4096; no other byte, no register and not
`I` changes (R144). -/
def Obligations.RegistersAreStored : Prop :=
  ∀ (x : Nib) (s : State), ∃ t, exec (.ldMemVx x) s = .next t ∧
    (∀ r, r ≤ x → Memory.read t.mem ((s.I.toNat + r.val) % 4096) = s.reg r) ∧
    (∀ a, (∀ r : Nib, r ≤ x → a % 4096 ≠ (s.I.toNat + r.val) % 4096) → t.readByte a = s.readByte a) ∧
    t.I = s.I ∧ KeepsRegsBut [] s t ∧ t.outcome = some (.completed false)

/-- LD Vx, [I]: the bytes from `I` up, resolved modulo 4096, to V0 to Vx, both ends in; the registers above Vx, memory and
`I` are unchanged; and LD F then LD V0, [I] reads byte 0 of the digit's glyph (R145). -/
def Obligations.RegistersAreLoaded : Prop :=
  (∀ (x : Nib) (s : State), ∃ t, exec (.ldVxMem x) s = .next t ∧
    (∀ r, t.reg r = if r ≤ x then Memory.read s.mem ((s.I.toNat + r.val) % 4096) else s.reg r) ∧
    KeepsMemory s t ∧ t.I = s.I ∧ t.outcome = some (.completed false)) ∧
  (∀ s : State, (s.reg 0).toNat ≤ 15 → ∃ t u, exec (.ldF 0) s = .next t ∧ exec (.ldVxMem 0) t = .next u ∧
    u.reg 0 = s.readByte (5 * (s.reg 0).toNat))

/-- Registers stored and then loaded from the same memory and index come back (20_memory.md R58 (a)). -/
def Obligations.LoadAfterStoreRestores : Prop :=
  ∀ (x : Nib) (s t u : State), exec (.ldMemVx x) s = .next t → u.mem = t.mem → u.I = t.I →
    ∃ v, exec (.ldVxMem x) u = .next v ∧ ∀ r, r ≤ x → v.reg r = s.reg r

/-- While the glyph region reads as after reset, LD F, V0 and LD V4, [I] load the five bytes of the digit in V0 (R53; digit
0's bytes are the source's, those of 1 to F PRESUMED, log entry 7). -/
def Obligations.GlyphBytesAreReachable : Prop :=
  ∀ (s : State) (d : Nib), s.reg 0 = BitVec.ofNat 8 d.val →
    (∀ a < 80, s.readByte a = State.reset.readByte a) →
    ∃ t u, exec (.ldF 0) s = .next t ∧ exec (.ldVxMem 4) t = .next u ∧
      glyphLookup d.val = some [u.reg 0, u.reg 1, u.reg 2, u.reg 3, u.reg 4]

/-! ### Display -/

/-- CLS: every pixel off, no register changed, no draw request (43_display.md R153). -/
def Obligations.ClearTurnsEveryPixelOff : Prop :=
  ∀ s : State, ∃ t, exec .cls s = .next t ∧ (∀ px py, t.pixel px py = false) ∧ KeepsRegsBut [] s t ∧
    t.outcome = some (.completed false)

/-- DRW: a pixel differs after from before exactly where the sprite covers it; VF is 1 when a lit pixel was covered and 0
when none was; the coordinates are those before VF is written; the draw request is made for every `n`, 0 included, and in
both resolutions (R154, R155 (c), (d); D1, D13, D25 are the spec's own decisions, log entries 5, 9, 10). -/
def Obligations.DrawXorsTheSprite : Prop :=
  ∀ (x y n : Nib) (s : State), ∃ t, exec (.drw x y n) s = .next t ∧
    (∀ px py, px < s.res.width → py < s.res.height →
      (t.pixel px py = true ↔
        (s.pixel px py = true ∧ ¬ Covers s x y n px py) ∨ (s.pixel px py = false ∧ Covers s x y n px py))) ∧
    (t.reg VF = 1#8 ∨ t.reg VF = 0#8) ∧
    (t.reg VF = 1#8 ↔ ∃ px py, s.pixel px py = true ∧ Covers s x y n px py) ∧
    KeepsRegsBut [VF] s t ∧ KeepsMemory s t ∧ t.I = s.I ∧ t.outcome = some (.completed true)

/-- Drawing the same sprite twice at the same place restores every pixel; on a screen that was clear the first draw reports
no collision, and the second one exactly when the sprite covers some cell (R155 (a), (b)). `x` and `y` are not VF, which
the first draw overwrites. -/
def Obligations.DrawTwiceErases : Prop :=
  ∀ (x y n : Nib) (s t u : State), x ≠ VF → y ≠ VF → exec (.drw x y n) s = .next t →
    exec (.drw x y n) t = .next u →
    (∀ px py, px < s.res.width → py < s.res.height → u.pixel px py = s.pixel px py) ∧
    ((∀ px py, s.pixel px py = false) →
      t.reg VF = 0#8 ∧ (u.reg VF = 1#8 ↔ ∃ px py, Covers s x y n px py))

/-- Only a draw asks for a render: of all instructions, those whose step completes with `redraw = true` are the `Dxyn`
(10_state.md R33; the field is the model's, log entry 3). -/
def Obligations.OnlyDrawRequestsARender : Prop :=
  ∀ i s t, exec i s = .next t → (t.outcome = some (.completed true) ↔ ∃ x y n, i = .drw x y n)

/-! ### Keys and timers -/

/-- SKP and SKNP of a key number 0 to 15, at address `A`: SKP skips when that key is down, SKNP when it is up; no register
changes (44_keypad_timers.md R160, R161). -/
def Obligations.KeySkipsAreComplements : Prop :=
  ∀ (x : Nib) (s : State) (A : Word) (k : Nib), s.pc = A + 2#16 → (s.reg x).toNat = k.val →
    ∃ t u, exec (.skp x) s = .next t ∧ exec (.sknp x) s = .next u ∧
      t.pc = (if s.keys.getLsbD k.val = true then A + 4#16 else A + 2#16) ∧
      u.pc = (if s.keys.getLsbD k.val = true then A + 2#16 else A + 4#16) ∧
      KeepsRegsBut [] s t ∧ KeepsRegsBut [] s u ∧
      t.outcome = some (.completed false) ∧ u.outcome = some (.completed false)

/-- SKP and SKNP of a key number above 15 take `KeyIndexOutOfRange`, nothing else changed (60_exceptions.md R174, R177; the
spec's own decisions D5, D9, log entries 4, 11). -/
def Obligations.KeyNumberAboveFifteenHalts : Prop :=
  ∀ (x : Nib) (s : State), 15 < (s.reg x).toNat → ∃ f g : FaultRecord,
    f.kind = .keyIndexOutOfRange ∧ f.word = 0xE#4 ++ nibBits x ++ 0x9E#8 ∧ f.addr + 2#16 = s.pc ∧
    exec (.skp x) s = .next { s with phase := .halted f, outcome := some (.faulted f) } ∧
    g.kind = .keyIndexOutOfRange ∧ g.word = 0xE#4 ++ nibBits x ++ 0xA1#8 ∧ g.addr + 2#16 = s.pc ∧
    exec (.sknp x) s = .next { s with phase := .halted g, outcome := some (.faulted g) }

/-- LD Vx, K: with a key down it completes with the lowest-numbered one; with none the phase becomes WAITKEY(x), nothing
else changes and the step is Waiting (44_keypad_timers.md R162, R167; the spec's own decision D10, log entry 12). -/
def Obligations.KeyWaitTakesTheLowestKey : Prop :=
  ∀ (x : Nib) (s : State),
    (∀ k : Nib, s.keys.getLsbD k.val = true → (∀ j < k, s.keys.getLsbD j.val = false) →
      ∃ t, exec (.ldVxK x) s = .next t ∧ (t.reg x).toNat = k.val ∧ KeepsRegsBut [x] s t ∧ t.pc = s.pc ∧
        t.phase = s.phase ∧ t.outcome = some (.completed false)) ∧
    (s.keys = 0#16 → exec (.ldVxK x) s = .next { s with phase := .waitKey x, outcome := some .waiting })

/-- The ENGINE's step in WAITKEY(x): with a key down `Vx` takes the lowest-numbered one and the phase is READY; with none
nothing changes and the step is Waiting; `pc` does not move (R163; the spec's own decision D10, log entry 12). -/
def Obligations.PollCompletesTheWait : Prop :=
  ∀ (x : Nib) (s : State) (rest : List AgentStep), EngineNext s rest → s.phase = .waitKey x →
    (∀ k : Nib, s.keys.getLsbD k.val = true → (∀ j < k, s.keys.getLsbD j.val = false) →
      ∃ t, step s = .next t ∧ (t.reg x).toNat = k.val ∧ KeepsRegsBut [x] s t ∧ t.pc = s.pc ∧ KeepsMemory s t ∧
        t.phase = .ready ∧ t.schedule = rest ∧ t.outcome = some (.completed false)) ∧
    (s.keys = 0#16 → step s = .next { s with schedule := rest, outcome := some .waiting })

/-- LD Vx, DT reads the delay timer and keeps it; LD DT, Vx and LD ST, Vx load the timers and keep the registers (R164,
R165, R166). -/
def Obligations.TimersAreReadAndLoaded : Prop :=
  ∀ (x : Nib) (s : State), ∃ t u v,
    exec (.ldVxDT x) s = .next t ∧ t.reg x = s.DT ∧ KeepsRegsBut [x] s t ∧ KeepsTimers s t ∧
    exec (.ldDTVx x) s = .next u ∧ u.DT = s.reg x ∧ u.ST = s.ST ∧ KeepsRegsBut [] s u ∧
    exec (.ldSTVx x) s = .next v ∧ v.ST = s.reg x ∧ v.DT = s.DT ∧ KeepsRegsBut [] s v ∧
    t.outcome = some (.completed false) ∧ u.outcome = some (.completed false) ∧
    v.outcome = some (.completed false)

/-- The steps of the other agents, in every phase: a tick lowers its own timer by one when above zero and leaves it at zero,
SetKeys replaces all sixteen flags, and nothing else of the machine changes (60_exceptions.md R183, R186; as steps of the
schedule, log entries 1, 3). -/
def Obligations.EnvironmentStepsChangeTheirOwn : Prop :=
  ∀ (s : State) (rest : List AgentStep),
    (s.schedule = .tickDelay :: rest → ∃ d : Byte, d.toNat = s.DT.toNat - 1 ∧
      step s = .next { s with DT := d, schedule := rest, outcome := none }) ∧
    (s.schedule = .tickSound :: rest → ∃ d : Byte, d.toNat = s.ST.toNat - 1 ∧
      step s = .next { s with ST := d, schedule := rest, outcome := none }) ∧
    (∀ k, s.schedule = .setKeys k :: rest →
      step s = .next { s with keys := k, schedule := rest, outcome := none })

/-! ### Frames, over every instruction -/

/-- A general register changes only as a destination of the instruction: `x` where the rule writes `Vx`, V0 to Vx for
`Fx65`, and VF for the six instructions that write it as a flag (10_state.md R20, R21). -/
def Obligations.OnlyDestinationRegistersChange : Prop :=
  ∀ i s t, exec i s = .next t → KeepsRegsBut (destRegs i) s t

/-- The other registers: `I` changes under Annn, Fx1E, Fx29 only, `sp` and the stack under 2nnn and 00EE only, DT under
Fx15 and ST under Fx18 only; keys, resolution and schedule never; the phase only to WAITKEY by Fx0A or to HALTED
(10_state.md R22, R24 to R27, R29, R30; `draws`, `cycled`, `loaded` and `schedule` are the model's own, log entries 1, 2, 15). -/
def Obligations.OnlyNamedSpecialRegistersChange : Prop :=
  ∀ i s t, exec i s = .next t →
    KeepsInputs s t ∧ (writesI i = false → t.I = s.I) ∧ (usesStack i = false → KeepsStack s t) ∧
    (t.DT = s.DT ∨ ∃ x, i = .ldDTVx x) ∧ (t.ST = s.ST ∨ ∃ x, i = .ldSTVx x) ∧
    (t.draws = s.draws ∨ ∃ x kk, i = .rnd x kk) ∧
    (t.phase = s.phase ∨ (∃ x, i = .ldVxK x ∧ t.phase = .waitKey x) ∨ ∃ f, t.phase = .halted f)

/-- Every byte of memory but those the instruction stores to reads as before: `I`, `I + 1`, `I + 2` for Fx33, `I` to
`I + x` for Fx55, none for every other instruction (20_memory.md R61). -/
def Obligations.OnlyStoredBytesChange : Prop :=
  ∀ i s t, exec i s = .next t →
    ∀ a, (∀ b ∈ storeAddrs i s, resolve a ≠ resolve b) → t.readByte a = s.readByte a

/-- The framebuffer changes only under 00E0 and Dxyn (10_state.md R28). -/
def Obligations.OnlyClearAndDrawChangeTheScreen : Prop :=
  ∀ i s t, exec i s = .next t → writesScreen i = false → ∀ px py, t.pixel px py = s.pixel px py

/-- Control transfer in one place: after an instruction `pc` is the advanced value, two more for a skip, `nnn` for a jump or
call, `nnn + V0` for the indexed jump, or the popped slot for a return (40_control_flow.md R110, R23). -/
def Obligations.ControlTransfersAreTheListed : Prop :=
  ∀ i s t, exec i s = .next t →
    t.pc = s.pc ∨ (isSkip i = true ∧ t.pc = s.pc + 2#16) ∨
    (∃ nnn : Addr12, (i = .jp nnn ∨ i = .call nnn) ∧ t.pc.toNat = nnn.toNat) ∨
    (∃ nnn : Addr12, i = .jpV0 nnn ∧ t.pc.toNat = nnn.toNat + (s.reg 0).toNat) ∨
    (i = .ret ∧ ∃ k : Nib, k.val = s.sp.toNat ∧ t.pc = s.slot k)

/-! ### Faults -/

/-- Every fault is precise: when a cycle ends HALTED, the record holds the fetched word and its address, and the state is
the one before with `pc` advanced and the phase changed (60_exceptions.md R177; the spec's own decision D5, log entries 4,
14; `cycled`, `schedule` and `outcome` are the model's own). -/
def Obligations.FaultsArePrecise : Prop :=
  ∀ s rest t f, EngineNext s rest → s.phase = .ready → step s = .next t → t.phase = .halted f →
    f.word = s.fetchWord ∧ f.addr = s.pc ∧
      t = { s with pc := s.pc + 2#16, cycled := true, schedule := rest, phase := .halted f, outcome := some (.faulted f) }

/-- Each instruction raises only its own fault, on its one condition: overflow by CALL at `sp = 15`, underflow by RET at
`sp = 0`, key index by SKP and SKNP above 15; no instruction of the table raises `UnsupportedInstruction` (R178). -/
def Obligations.FaultsHaveTheirRaisers : Prop :=
  ∀ i s t f, s.phase = .ready → exec i s = .next t → t.phase = .halted f →
    (f.kind = .stackOverflow ∧ (∃ nnn, i = .call nnn) ∧ s.sp = 15#8) ∨
    (f.kind = .stackUnderflow ∧ i = .ret ∧ s.sp = 0#8) ∨
    (f.kind = .keyIndexOutOfRange ∧ ∃ x, (i = .skp x ∨ i = .sknp x) ∧ 15 < (s.reg x).toNat)

/-- HALTED is left only by Reset: the ENGINE has no step there, which is the model's Fault `halted`, and every other agent's
step keeps the phase and its record (R176, R179; the spec's own decision D5, log entry 4). -/
def Obligations.OnlyResetLeavesHalted : Prop :=
  ∀ s f, s.phase = .halted f →
    (∀ rest, EngineNext s rest → step s = .fault (.halted f)) ∧
    (∀ t, step s = .next t → t.phase = .halted f ∨ ∃ rest, s.schedule = .reset :: rest)

/-! ### Reset and load -/

/-- The reset state (10_state.md R35, 70_reset_and_hazards.md R200, R202). The source gives `pc`, the zeroed memory above the
glyphs, glyph 0 and the clear screen; the zeros of registers, timers, stack and keys are the spec's own decision D6 (log
entry 6), and the glyphs of 1 to F are PRESUMED (log entry 7). -/
def Obligations.ResetLeavesTheStatedValues : Prop :=
  State.reset.pc = 0x0200#16 ∧ State.reset.phase = .ready ∧ State.reset.sp = 0#8 ∧ State.reset.I = 0#16 ∧
  State.reset.DT = 0#8 ∧ State.reset.ST = 0#8 ∧ (∀ r, State.reset.reg r = 0#8) ∧
  (∀ k, State.reset.slot k = 0#16) ∧ (∀ k, State.reset.key k = false) ∧
  (∀ px py, State.reset.pixel px py = false) ∧
  (∀ a, 0x050 ≤ a → a < 4096 → State.reset.readByte a = 0#8) ∧
  (∀ d r : Nat, d < 16 → r < 5 → State.reset.readByte (5 * d + r) = (glyphs.getD d []).getD r 0#8) ∧
  glyphs.getD 0 [] = [0xF0#8, 0x90#8, 0x90#8, 0x90#8, 0xF0#8]

/-- The Reset step of the HOST gives that state from any phase, HALTED included; the resolution stays (R200). That the
draws and the schedule run on is the model's choice (log entry 16). -/
def Obligations.ResetStepDiscardsTheState : Prop :=
  ∀ s rest, s.schedule = .reset :: rest →
    step s = .next { State.reset with res := s.res, draws := s.draws, schedule := rest }

/-- The Load step: before the first cycle, in READY, the first time since Reset, at most 3584 bytes go to 0x200 and up and no
other byte changes; a longer program, a later load and a second load are each refused by name (R201; the limit and "happens
once" are the spec's own decision D20, log entry 15). -/
def Obligations.LoadPlacesTheProgram : Prop :=
  ∀ (s : State) (rest : List AgentStep) (bytes : List Byte), s.schedule = .load bytes :: rest →
    (bytes.length ≤ 3584 → s.phase = .ready → s.cycled = false → s.loaded = false → ∃ t, step s = .next t ∧
      (∀ i, ∀ h : i < bytes.length, t.readByte (0x200 + i) = bytes[i]) ∧
      (∀ a < 4096, a < 0x200 ∨ 0x200 + bytes.length ≤ a → t.readByte a = s.readByte a) ∧
      t = { s with mem := t.mem, loaded := true, schedule := rest, outcome := none }) ∧
    (3584 < bytes.length → step s = .refused .loadTooLong) ∧
    (bytes.length ≤ 3584 → (s.phase ≠ .ready ∨ s.cycled = true) → step s = .refused .loadTooLate) ∧
    (bytes.length ≤ 3584 → s.phase = .ready → s.cycled = false → s.loaded = true → step s = .refused .loadTwice)

/-- "Bytes of memory not covered by the program keep their reset value" (R201): from a state that meets the invariant, after
every Load that is taken, each byte outside the program reads as it does at reset, because no earlier load (D20, log entry
15) and no cycle can have written it. -/
def Obligations.UncoveredBytesKeepTheirResetValue : Prop :=
  ∀ (s t : State) (rest : List AgentStep) (bytes : List Byte), StateInv s → s.schedule = .load bytes :: rest →
    step s = .next t →
      ∀ a < 4096, a < 0x200 ∨ 0x200 + bytes.length ≤ a → t.readByte a = State.reset.readByte a

/-! ### Invariants -/

/-- The invariant holds at reset. -/
def Obligations.ResetMeetsTheInvariant : Prop := StateInv State.reset

/-- Every step of every agent keeps the invariant, from every state that meets it: canonical memory and screen, `sp` in 0
to 15 ("It never holds a value outside 0 to 15", 10_state.md R24), memory as at reset until a load or a cycle
(70_reset_and_hazards.md R201), and the halted machine's `pc` two past the faulting address (60_exceptions.md R177). -/
def Obligations.EveryStepKeepsTheInvariant : Prop := ∀ s t, StateInv s → step s = .next t → StateInv t

/-- "`stack[0]` is never written or read by any instruction" (10_state.md R25): no step but a Reset changes it, and no
instruction's effect depends on it: with another value there, the state after differs in that slot alone. -/
def Obligations.StackSlotZeroIsNeverUsed : Prop :=
  (∀ s t, step s = .next t → t.slot 0 = s.slot 0 ∨ ∃ rest, s.schedule = .reset :: rest) ∧
  (∀ i s t w, exec i s = .next t → exec i (s.setSlot 0 w) = .next (t.setSlot 0 w))

/-- Nothing a program does ends the run but a fault of the machine: from a state that is not HALTED, with `sp` in 0 to 15 as
the invariant says, the ENGINE always has a next state (60_exceptions.md R170, R192: arithmetic, addresses, odd `pc` and
waiting are no faults). -/
def Obligations.EngineAlwaysAnswers : Prop :=
  ∀ s rest, s.sp.toNat ≤ 15 → EngineNext s rest → (∀ f, s.phase ≠ .halted f) → ∃ t, step s = .next t
end

