-- ==== Sys2Proof/Laws/Decode.lean ====
section
/-! SUPPORT. The fields of a word built from its fields, a word built back from its fields, and the bytes of a word. -/

namespace Sys2Proof

theorem toFin_nibBits (n : Nib) : (nibBits n).toFin = n := rfl

theorem nibBits_toFin (b : BitVec 4) : nibBits b.toFin = b := rfl

theorem getLsbD_encA (a : Nib) (nnn : Addr12) (i : Nat) :
    (encA a nnn).getLsbD i = if i < 12 then nnn.getLsbD i else (nibBits a).getLsbD (i - 12) := by
  simp only [encA, BitVec.getLsbD_append]

theorem getLsbD_encXK (a x : Nib) (kk : Byte) (i : Nat) :
    (encXK a x kk).getLsbD i =
      if i < 8 then kk.getLsbD i
      else if i < 12 then (nibBits x).getLsbD (i - 8) else (nibBits a).getLsbD (i - 12) := by
  simp only [encXK, BitVec.getLsbD_append, Nat.sub_sub, show i - 8 < 4 ↔ i < 12 by omega]

theorem getLsbD_encXY (a x y d : Nib) (i : Nat) :
    (encXY a x y d).getLsbD i =
      if i < 4 then (nibBits d).getLsbD i
      else if i < 8 then (nibBits y).getLsbD (i - 4)
      else if i < 12 then (nibBits x).getLsbD (i - 8) else (nibBits a).getLsbD (i - 12) := by
  simp only [encXY, BitVec.getLsbD_append]
  simp only [Nat.sub_sub, Nat.reduceAdd, show i - 4 < 4 ↔ i < 8 by omega, show i - 8 < 4 ↔ i < 12 by omega]

theorem getLsbD_wordOfBytes (b0 b1 : Byte) (i : Nat) :
    (wordOfBytes b0 b1).getLsbD i = if i < 8 then b1.getLsbD i else b0.getLsbD (i - 8) := by
  simp only [wordOfBytes, BitVec.getLsbD_append]

/-- Format A has its two fields where R72 puts them. -/
theorem fields_encA (a : Nib) (nnn : Addr12) : fieldA (encA a nnn) = a ∧ fieldNNN (encA a nnn) = nnn := by
  constructor
  · refine congrArg BitVec.toFin (a₂ := nibBits a) (BitVec.eq_of_getLsbD_eq fun i hi => ?_)
    simp only [BitVec.getLsbD_extractLsb', getLsbD_encA]
    simp [hi]
  · refine BitVec.eq_of_getLsbD_eq fun i hi => ?_
    simp only [fieldNNN, BitVec.getLsbD_extractLsb', getLsbD_encA]
    simp [hi]

/-- Formats XK and XF have their three fields where R72 puts them. -/
theorem fields_encXK (a x : Nib) (kk : Byte) :
    fieldA (encXK a x kk) = a ∧ fieldX (encXK a x kk) = x ∧ fieldKK (encXK a x kk) = kk := by
  refine ⟨?_, ?_, ?_⟩
  · refine congrArg BitVec.toFin (a₂ := nibBits a) (BitVec.eq_of_getLsbD_eq fun i hi => ?_)
    simp only [BitVec.getLsbD_extractLsb', getLsbD_encXK]
    simp [hi, show ¬ 12 + i < 8 by omega]
  · refine congrArg BitVec.toFin (a₂ := nibBits x) (BitVec.eq_of_getLsbD_eq fun i hi => ?_)
    simp only [BitVec.getLsbD_extractLsb', getLsbD_encXK]
    simp [hi, show 8 + i < 12 by omega]
  · refine BitVec.eq_of_getLsbD_eq fun i hi => ?_
    simp only [fieldKK, BitVec.getLsbD_extractLsb', getLsbD_encXK]
    simp [hi]

/-- Formats XY and XYN have their four fields where R72 puts them. -/
theorem fields_encXY (a x y d : Nib) :
    fieldA (encXY a x y d) = a ∧ fieldX (encXY a x y d) = x ∧ fieldY (encXY a x y d) = y ∧
      fieldN (encXY a x y d) = d := by
  refine ⟨?_, ?_, ?_, ?_⟩
  · refine congrArg BitVec.toFin (a₂ := nibBits a) (BitVec.eq_of_getLsbD_eq fun i hi => ?_)
    simp only [BitVec.getLsbD_extractLsb', getLsbD_encXY]
    simp [hi, show ¬ 12 + i < 4 by omega, show ¬ 12 + i < 8 by omega]
  · refine congrArg BitVec.toFin (a₂ := nibBits x) (BitVec.eq_of_getLsbD_eq fun i hi => ?_)
    simp only [BitVec.getLsbD_extractLsb', getLsbD_encXY]
    simp [hi, show ¬ 8 + i < 4 by omega, show 8 + i < 12 by omega]
  · refine congrArg BitVec.toFin (a₂ := nibBits y) (BitVec.eq_of_getLsbD_eq fun i hi => ?_)
    simp only [BitVec.getLsbD_extractLsb', getLsbD_encXY]
    simp [hi, show 4 + i < 8 by omega]
  · refine congrArg BitVec.toFin (a₂ := nibBits d) (BitVec.eq_of_getLsbD_eq fun i hi => ?_)
    simp only [BitVec.getLsbD_extractLsb', getLsbD_encXY]
    simp [hi]

/-- A word is its family and its 12-bit address (R72). -/
theorem encA_fields (w : Word) : encA (fieldA w) (fieldNNN w) = w := by
  refine BitVec.eq_of_getLsbD_eq fun i hi => ?_
  simp only [encA, fieldA, fieldNNN, nibBits_toFin, BitVec.getLsbD_append, BitVec.getLsbD_extractLsb']
  by_cases h : i < 12
  · simp [h]
  · have h4 : i - 12 < 4 := by omega
    have : 12 + (i - 12) = i := by omega
    simp [h, h4, this]

/-- A word is its family, its first register and its low byte (R72). -/
theorem encXK_fields (w : Word) : encXK (fieldA w) (fieldX w) (fieldKK w) = w := by
  refine BitVec.eq_of_getLsbD_eq fun i hi => ?_
  simp only [encXK, fieldA, fieldX, fieldKK, nibBits_toFin, BitVec.getLsbD_append, BitVec.getLsbD_extractLsb']
  by_cases h : i < 8
  · simp [h]
  · by_cases h' : i - 8 < 4
    · have : 8 + (i - 8) = i := by omega
      simp [h, h', this]
    · have h4 : i - 8 - 4 < 4 := by omega
      have : 12 + (i - 8 - 4) = i := by omega
      simp [h, h', h4, this]

/-- A word is its four nibbles (R72). -/
theorem encXY_fields (w : Word) : encXY (fieldA w) (fieldX w) (fieldY w) (fieldN w) = w := by
  refine BitVec.eq_of_getLsbD_eq fun i hi => ?_
  simp only [encXY, fieldA, fieldX, fieldY, fieldN, nibBits_toFin, BitVec.getLsbD_append, BitVec.getLsbD_extractLsb']
  by_cases h : i < 4
  · simp [h]
  · by_cases h' : i - 4 < 4
    · have : 4 + (i - 4) = i := by omega
      simp [h, h', this]
    · by_cases h'' : i - 4 - 4 < 4
      · have : 8 + (i - 4 - 4) = i := by omega
        simp [h, h', h'', this]
      · have h4 : i - 4 - 4 - 4 < 4 := by omega
        have : 12 + (i - 4 - 4 - 4) = i := by omega
        simp [h, h', h'', h4, this]

/-- A word is its two bytes, the high one first (20_memory.md R54). -/
@[simp] theorem wordOfBytes_split (w : Word) : wordOfBytes (highByte w) (lowByte w) = w := by
  refine BitVec.eq_of_getLsbD_eq fun i hi => ?_
  simp only [wordOfBytes, highByte, lowByte, BitVec.getLsbD_append, BitVec.getLsbD_extractLsb']
  by_cases h : i < 8
  · simp [h]
  · have h4 : i - 8 < 8 := by omega
    have : 8 + (i - 8) = i := by omega
    simp [h, h4, this]

/-- The first of two bytes is the word's high byte, the second its low byte (20_memory.md R54). -/
theorem bytes_wordOfBytes (b0 b1 : Byte) :
    highByte (wordOfBytes b0 b1) = b0 ∧ lowByte (wordOfBytes b0 b1) = b1 := by
  constructor <;> refine BitVec.eq_of_getLsbD_eq fun i hi => ?_ <;>
    simp only [highByte, lowByte, BitVec.getLsbD_extractLsb', getLsbD_wordOfBytes] <;> simp [hi]

/-- Two bytes decode as the word they make, whatever lies behind them (R70, R71). -/
@[simp] theorem decodeBytes_cons (b0 b1 : Byte) (bs : List Byte) :
    decodeBytes (b0 :: b1 :: bs) = decode (wordOfBytes b0 b1) := rfl

/-- Decoding a table word is decoding the word. -/
theorem decodeTableWord_eq (nbits w : Nat) :
    decodeTableWord nbits w =
      match decode (BitVec.ofNat 16 (w % 2 ^ nbits)) with
      | .instr i => some i
      | .illegal _ => none := by
  cases h : decode (BitVec.ofNat 16 (w % 2 ^ nbits)) <;>
    simp only [decodeTableWord, decodeBytes_cons, wordOfBytes_split, h]

/-- A word under the mask of formats A, XK and XYN is its family alone (R76). -/
theorem and_F000 (w : Word) : w &&& 0xF000#16 = encA (fieldA w) 0 := by
  refine BitVec.eq_of_getLsbD_eq fun i hi => ?_
  simp only [getLsbD_encA, fieldA, nibBits_toFin, BitVec.getLsbD_extractLsb', BitVec.getLsbD_and]
  interval_cases i <;> simp

/-- A word under the mask of format XY is its family and its low nibble (R76). -/
theorem and_F00F (w : Word) : w &&& 0xF00F#16 = encXY (fieldA w) 0 0 (fieldN w) := by
  refine BitVec.eq_of_getLsbD_eq fun i hi => ?_
  simp only [getLsbD_encXY, fieldA, fieldN, nibBits_toFin, BitVec.getLsbD_extractLsb', BitVec.getLsbD_and]
  interval_cases i <;> simp [nibBits]

/-- A word under the mask of format XF is its family and its low byte (R76). -/
theorem and_F0FF (w : Word) : w &&& 0xF0FF#16 = encXK (fieldA w) 0 (fieldKK w) := by
  refine BitVec.eq_of_getLsbD_eq fun i hi => ?_
  simp only [getLsbD_encXK, fieldA, fieldKK, nibBits_toFin, BitVec.getLsbD_extractLsb', BitVec.getLsbD_and]
  interval_cases i <;> simp [nibBits]

end Sys2Proof
end

