-- ==== Sys2Proof/Laws/State.lean ====
section
/-! SUPPORT. One lemma per field per update of State, and one per accessor per update that leaves it alone: true by
unfolding, and simp lemmas, so that no proof unfolds a record update. -/

namespace Sys2Proof.Machine

variable (s : State)

/-! setReg -/

@[simp] theorem State.setReg_V (r : Nib) (b : Byte) : (s.setReg r b).V = s.V.set r b := rfl
@[simp] theorem State.setReg_I (r : Nib) (b : Byte) : (s.setReg r b).I = s.I := rfl
@[simp] theorem State.setReg_pc (r : Nib) (b : Byte) : (s.setReg r b).pc = s.pc := rfl
@[simp] theorem State.setReg_sp (r : Nib) (b : Byte) : (s.setReg r b).sp = s.sp := rfl
@[simp] theorem State.setReg_stack (r : Nib) (b : Byte) : (s.setReg r b).stack = s.stack := rfl
@[simp] theorem State.setReg_DT (r : Nib) (b : Byte) : (s.setReg r b).DT = s.DT := rfl
@[simp] theorem State.setReg_ST (r : Nib) (b : Byte) : (s.setReg r b).ST = s.ST := rfl
@[simp] theorem State.setReg_FB (r : Nib) (b : Byte) : (s.setReg r b).FB = s.FB := rfl
@[simp] theorem State.setReg_mem (r : Nib) (b : Byte) : (s.setReg r b).mem = s.mem := rfl
@[simp] theorem State.setReg_keys (r : Nib) (b : Byte) : (s.setReg r b).keys = s.keys := rfl
@[simp] theorem State.setReg_phase (r : Nib) (b : Byte) : (s.setReg r b).phase = s.phase := rfl
@[simp] theorem State.setReg_res (r : Nib) (b : Byte) : (s.setReg r b).res = s.res := rfl
@[simp] theorem State.setReg_outcome (r : Nib) (b : Byte) : (s.setReg r b).outcome = s.outcome := rfl
@[simp] theorem State.setReg_cycled (r : Nib) (b : Byte) : (s.setReg r b).cycled = s.cycled := rfl
@[simp] theorem State.setReg_loaded (r : Nib) (b : Byte) : (s.setReg r b).loaded = s.loaded := rfl
@[simp] theorem State.setReg_draws (r : Nib) (b : Byte) : (s.setReg r b).draws = s.draws := rfl
@[simp] theorem State.setReg_schedule (r : Nib) (b : Byte) : (s.setReg r b).schedule = s.schedule := rfl
@[simp] theorem State.setReg_slot (r : Nib) (b : Byte) (j : Nib) : (s.setReg r b).slot j = s.slot j := rfl
@[simp] theorem State.setReg_key (r : Nib) (b : Byte) (j : Nib) : (s.setReg r b).key j = s.key j := rfl
@[simp] theorem State.setReg_readByte (r : Nib) (b : Byte) (a : Nat) : (s.setReg r b).readByte a = s.readByte a := rfl
@[simp] theorem State.setReg_pixel (r : Nib) (b : Byte) (x y : Nat) : (s.setReg r b).pixel x y = s.pixel x y := rfl
@[simp] theorem State.setReg_ea (r : Nib) (b : Byte) (i : Nat) : (s.setReg r b).ea i = s.ea i := rfl
@[simp] theorem State.setReg_firstKey (r : Nib) (b : Byte) : (s.setReg r b).firstKey = s.firstKey := rfl

/-! setI -/

@[simp] theorem State.setI_V (w : Word) : (s.setI w).V = s.V := rfl
@[simp] theorem State.setI_I (w : Word) : (s.setI w).I = w := rfl
@[simp] theorem State.setI_pc (w : Word) : (s.setI w).pc = s.pc := rfl
@[simp] theorem State.setI_sp (w : Word) : (s.setI w).sp = s.sp := rfl
@[simp] theorem State.setI_stack (w : Word) : (s.setI w).stack = s.stack := rfl
@[simp] theorem State.setI_DT (w : Word) : (s.setI w).DT = s.DT := rfl
@[simp] theorem State.setI_ST (w : Word) : (s.setI w).ST = s.ST := rfl
@[simp] theorem State.setI_FB (w : Word) : (s.setI w).FB = s.FB := rfl
@[simp] theorem State.setI_mem (w : Word) : (s.setI w).mem = s.mem := rfl
@[simp] theorem State.setI_keys (w : Word) : (s.setI w).keys = s.keys := rfl
@[simp] theorem State.setI_phase (w : Word) : (s.setI w).phase = s.phase := rfl
@[simp] theorem State.setI_res (w : Word) : (s.setI w).res = s.res := rfl
@[simp] theorem State.setI_outcome (w : Word) : (s.setI w).outcome = s.outcome := rfl
@[simp] theorem State.setI_cycled (w : Word) : (s.setI w).cycled = s.cycled := rfl
@[simp] theorem State.setI_loaded (w : Word) : (s.setI w).loaded = s.loaded := rfl
@[simp] theorem State.setI_draws (w : Word) : (s.setI w).draws = s.draws := rfl
@[simp] theorem State.setI_schedule (w : Word) : (s.setI w).schedule = s.schedule := rfl
@[simp] theorem State.setI_reg (w : Word) (q : Nib) : (s.setI w).reg q = s.reg q := rfl
@[simp] theorem State.setI_slot (w : Word) (j : Nib) : (s.setI w).slot j = s.slot j := rfl
@[simp] theorem State.setI_key (w : Word) (j : Nib) : (s.setI w).key j = s.key j := rfl
@[simp] theorem State.setI_readByte (w : Word) (a : Nat) : (s.setI w).readByte a = s.readByte a := rfl
@[simp] theorem State.setI_pixel (w : Word) (x y : Nat) : (s.setI w).pixel x y = s.pixel x y := rfl
@[simp] theorem State.setI_firstKey (w : Word) : (s.setI w).firstKey = s.firstKey := rfl

/-! setPc -/

@[simp] theorem State.setPc_V (w : Word) : (s.setPc w).V = s.V := rfl
@[simp] theorem State.setPc_I (w : Word) : (s.setPc w).I = s.I := rfl
@[simp] theorem State.setPc_pc (w : Word) : (s.setPc w).pc = w := rfl
@[simp] theorem State.setPc_sp (w : Word) : (s.setPc w).sp = s.sp := rfl
@[simp] theorem State.setPc_stack (w : Word) : (s.setPc w).stack = s.stack := rfl
@[simp] theorem State.setPc_DT (w : Word) : (s.setPc w).DT = s.DT := rfl
@[simp] theorem State.setPc_ST (w : Word) : (s.setPc w).ST = s.ST := rfl
@[simp] theorem State.setPc_FB (w : Word) : (s.setPc w).FB = s.FB := rfl
@[simp] theorem State.setPc_mem (w : Word) : (s.setPc w).mem = s.mem := rfl
@[simp] theorem State.setPc_keys (w : Word) : (s.setPc w).keys = s.keys := rfl
@[simp] theorem State.setPc_phase (w : Word) : (s.setPc w).phase = s.phase := rfl
@[simp] theorem State.setPc_res (w : Word) : (s.setPc w).res = s.res := rfl
@[simp] theorem State.setPc_outcome (w : Word) : (s.setPc w).outcome = s.outcome := rfl
@[simp] theorem State.setPc_cycled (w : Word) : (s.setPc w).cycled = s.cycled := rfl
@[simp] theorem State.setPc_loaded (w : Word) : (s.setPc w).loaded = s.loaded := rfl
@[simp] theorem State.setPc_draws (w : Word) : (s.setPc w).draws = s.draws := rfl
@[simp] theorem State.setPc_schedule (w : Word) : (s.setPc w).schedule = s.schedule := rfl
@[simp] theorem State.setPc_reg (w : Word) (q : Nib) : (s.setPc w).reg q = s.reg q := rfl
@[simp] theorem State.setPc_slot (w : Word) (j : Nib) : (s.setPc w).slot j = s.slot j := rfl
@[simp] theorem State.setPc_key (w : Word) (j : Nib) : (s.setPc w).key j = s.key j := rfl
@[simp] theorem State.setPc_readByte (w : Word) (a : Nat) : (s.setPc w).readByte a = s.readByte a := rfl
@[simp] theorem State.setPc_pixel (w : Word) (x y : Nat) : (s.setPc w).pixel x y = s.pixel x y := rfl
@[simp] theorem State.setPc_ea (w : Word) (i : Nat) : (s.setPc w).ea i = s.ea i := rfl
@[simp] theorem State.setPc_firstKey (w : Word) : (s.setPc w).firstKey = s.firstKey := rfl

/-! setSp -/

@[simp] theorem State.setSp_V (b : Byte) : (s.setSp b).V = s.V := rfl
@[simp] theorem State.setSp_I (b : Byte) : (s.setSp b).I = s.I := rfl
@[simp] theorem State.setSp_pc (b : Byte) : (s.setSp b).pc = s.pc := rfl
@[simp] theorem State.setSp_sp (b : Byte) : (s.setSp b).sp = b := rfl
@[simp] theorem State.setSp_stack (b : Byte) : (s.setSp b).stack = s.stack := rfl
@[simp] theorem State.setSp_DT (b : Byte) : (s.setSp b).DT = s.DT := rfl
@[simp] theorem State.setSp_ST (b : Byte) : (s.setSp b).ST = s.ST := rfl
@[simp] theorem State.setSp_FB (b : Byte) : (s.setSp b).FB = s.FB := rfl
@[simp] theorem State.setSp_mem (b : Byte) : (s.setSp b).mem = s.mem := rfl
@[simp] theorem State.setSp_keys (b : Byte) : (s.setSp b).keys = s.keys := rfl
@[simp] theorem State.setSp_phase (b : Byte) : (s.setSp b).phase = s.phase := rfl
@[simp] theorem State.setSp_res (b : Byte) : (s.setSp b).res = s.res := rfl
@[simp] theorem State.setSp_outcome (b : Byte) : (s.setSp b).outcome = s.outcome := rfl
@[simp] theorem State.setSp_cycled (b : Byte) : (s.setSp b).cycled = s.cycled := rfl
@[simp] theorem State.setSp_loaded (b : Byte) : (s.setSp b).loaded = s.loaded := rfl
@[simp] theorem State.setSp_draws (b : Byte) : (s.setSp b).draws = s.draws := rfl
@[simp] theorem State.setSp_schedule (b : Byte) : (s.setSp b).schedule = s.schedule := rfl
@[simp] theorem State.setSp_reg (b : Byte) (q : Nib) : (s.setSp b).reg q = s.reg q := rfl
@[simp] theorem State.setSp_slot (b : Byte) (j : Nib) : (s.setSp b).slot j = s.slot j := rfl
@[simp] theorem State.setSp_key (b : Byte) (j : Nib) : (s.setSp b).key j = s.key j := rfl
@[simp] theorem State.setSp_readByte (b : Byte) (a : Nat) : (s.setSp b).readByte a = s.readByte a := rfl
@[simp] theorem State.setSp_pixel (b : Byte) (x y : Nat) : (s.setSp b).pixel x y = s.pixel x y := rfl
@[simp] theorem State.setSp_ea (b : Byte) (i : Nat) : (s.setSp b).ea i = s.ea i := rfl
@[simp] theorem State.setSp_firstKey (b : Byte) : (s.setSp b).firstKey = s.firstKey := rfl

/-! setSlot -/

@[simp] theorem State.setSlot_V (k : Nib) (w : Word) : (s.setSlot k w).V = s.V := rfl
@[simp] theorem State.setSlot_I (k : Nib) (w : Word) : (s.setSlot k w).I = s.I := rfl
@[simp] theorem State.setSlot_pc (k : Nib) (w : Word) : (s.setSlot k w).pc = s.pc := rfl
@[simp] theorem State.setSlot_sp (k : Nib) (w : Word) : (s.setSlot k w).sp = s.sp := rfl
@[simp] theorem State.setSlot_stack (k : Nib) (w : Word) : (s.setSlot k w).stack = s.stack.set k w := rfl
@[simp] theorem State.setSlot_DT (k : Nib) (w : Word) : (s.setSlot k w).DT = s.DT := rfl
@[simp] theorem State.setSlot_ST (k : Nib) (w : Word) : (s.setSlot k w).ST = s.ST := rfl
@[simp] theorem State.setSlot_FB (k : Nib) (w : Word) : (s.setSlot k w).FB = s.FB := rfl
@[simp] theorem State.setSlot_mem (k : Nib) (w : Word) : (s.setSlot k w).mem = s.mem := rfl
@[simp] theorem State.setSlot_keys (k : Nib) (w : Word) : (s.setSlot k w).keys = s.keys := rfl
@[simp] theorem State.setSlot_phase (k : Nib) (w : Word) : (s.setSlot k w).phase = s.phase := rfl
@[simp] theorem State.setSlot_res (k : Nib) (w : Word) : (s.setSlot k w).res = s.res := rfl
@[simp] theorem State.setSlot_outcome (k : Nib) (w : Word) : (s.setSlot k w).outcome = s.outcome := rfl
@[simp] theorem State.setSlot_cycled (k : Nib) (w : Word) : (s.setSlot k w).cycled = s.cycled := rfl
@[simp] theorem State.setSlot_loaded (k : Nib) (w : Word) : (s.setSlot k w).loaded = s.loaded := rfl
@[simp] theorem State.setSlot_draws (k : Nib) (w : Word) : (s.setSlot k w).draws = s.draws := rfl
@[simp] theorem State.setSlot_schedule (k : Nib) (w : Word) : (s.setSlot k w).schedule = s.schedule := rfl
@[simp] theorem State.setSlot_reg (k : Nib) (w : Word) (q : Nib) : (s.setSlot k w).reg q = s.reg q := rfl
@[simp] theorem State.setSlot_key (k : Nib) (w : Word) (j : Nib) : (s.setSlot k w).key j = s.key j := rfl
@[simp] theorem State.setSlot_readByte (k : Nib) (w : Word) (a : Nat) : (s.setSlot k w).readByte a = s.readByte a := rfl
@[simp] theorem State.setSlot_pixel (k : Nib) (w : Word) (x y : Nat) : (s.setSlot k w).pixel x y = s.pixel x y := rfl
@[simp] theorem State.setSlot_ea (k : Nib) (w : Word) (i : Nat) : (s.setSlot k w).ea i = s.ea i := rfl
@[simp] theorem State.setSlot_firstKey (k : Nib) (w : Word) : (s.setSlot k w).firstKey = s.firstKey := rfl

/-! setDT -/

@[simp] theorem State.setDT_V (b : Byte) : (s.setDT b).V = s.V := rfl
@[simp] theorem State.setDT_I (b : Byte) : (s.setDT b).I = s.I := rfl
@[simp] theorem State.setDT_pc (b : Byte) : (s.setDT b).pc = s.pc := rfl
@[simp] theorem State.setDT_sp (b : Byte) : (s.setDT b).sp = s.sp := rfl
@[simp] theorem State.setDT_stack (b : Byte) : (s.setDT b).stack = s.stack := rfl
@[simp] theorem State.setDT_DT (b : Byte) : (s.setDT b).DT = b := rfl
@[simp] theorem State.setDT_ST (b : Byte) : (s.setDT b).ST = s.ST := rfl
@[simp] theorem State.setDT_FB (b : Byte) : (s.setDT b).FB = s.FB := rfl
@[simp] theorem State.setDT_mem (b : Byte) : (s.setDT b).mem = s.mem := rfl
@[simp] theorem State.setDT_keys (b : Byte) : (s.setDT b).keys = s.keys := rfl
@[simp] theorem State.setDT_phase (b : Byte) : (s.setDT b).phase = s.phase := rfl
@[simp] theorem State.setDT_res (b : Byte) : (s.setDT b).res = s.res := rfl
@[simp] theorem State.setDT_outcome (b : Byte) : (s.setDT b).outcome = s.outcome := rfl
@[simp] theorem State.setDT_cycled (b : Byte) : (s.setDT b).cycled = s.cycled := rfl
@[simp] theorem State.setDT_loaded (b : Byte) : (s.setDT b).loaded = s.loaded := rfl
@[simp] theorem State.setDT_draws (b : Byte) : (s.setDT b).draws = s.draws := rfl
@[simp] theorem State.setDT_schedule (b : Byte) : (s.setDT b).schedule = s.schedule := rfl
@[simp] theorem State.setDT_reg (b : Byte) (q : Nib) : (s.setDT b).reg q = s.reg q := rfl
@[simp] theorem State.setDT_slot (b : Byte) (j : Nib) : (s.setDT b).slot j = s.slot j := rfl
@[simp] theorem State.setDT_key (b : Byte) (j : Nib) : (s.setDT b).key j = s.key j := rfl
@[simp] theorem State.setDT_readByte (b : Byte) (a : Nat) : (s.setDT b).readByte a = s.readByte a := rfl
@[simp] theorem State.setDT_pixel (b : Byte) (x y : Nat) : (s.setDT b).pixel x y = s.pixel x y := rfl
@[simp] theorem State.setDT_ea (b : Byte) (i : Nat) : (s.setDT b).ea i = s.ea i := rfl
@[simp] theorem State.setDT_firstKey (b : Byte) : (s.setDT b).firstKey = s.firstKey := rfl

/-! setST -/

@[simp] theorem State.setST_V (b : Byte) : (s.setST b).V = s.V := rfl
@[simp] theorem State.setST_I (b : Byte) : (s.setST b).I = s.I := rfl
@[simp] theorem State.setST_pc (b : Byte) : (s.setST b).pc = s.pc := rfl
@[simp] theorem State.setST_sp (b : Byte) : (s.setST b).sp = s.sp := rfl
@[simp] theorem State.setST_stack (b : Byte) : (s.setST b).stack = s.stack := rfl
@[simp] theorem State.setST_DT (b : Byte) : (s.setST b).DT = s.DT := rfl
@[simp] theorem State.setST_ST (b : Byte) : (s.setST b).ST = b := rfl
@[simp] theorem State.setST_FB (b : Byte) : (s.setST b).FB = s.FB := rfl
@[simp] theorem State.setST_mem (b : Byte) : (s.setST b).mem = s.mem := rfl
@[simp] theorem State.setST_keys (b : Byte) : (s.setST b).keys = s.keys := rfl
@[simp] theorem State.setST_phase (b : Byte) : (s.setST b).phase = s.phase := rfl
@[simp] theorem State.setST_res (b : Byte) : (s.setST b).res = s.res := rfl
@[simp] theorem State.setST_outcome (b : Byte) : (s.setST b).outcome = s.outcome := rfl
@[simp] theorem State.setST_cycled (b : Byte) : (s.setST b).cycled = s.cycled := rfl
@[simp] theorem State.setST_loaded (b : Byte) : (s.setST b).loaded = s.loaded := rfl
@[simp] theorem State.setST_draws (b : Byte) : (s.setST b).draws = s.draws := rfl
@[simp] theorem State.setST_schedule (b : Byte) : (s.setST b).schedule = s.schedule := rfl
@[simp] theorem State.setST_reg (b : Byte) (q : Nib) : (s.setST b).reg q = s.reg q := rfl
@[simp] theorem State.setST_slot (b : Byte) (j : Nib) : (s.setST b).slot j = s.slot j := rfl
@[simp] theorem State.setST_key (b : Byte) (j : Nib) : (s.setST b).key j = s.key j := rfl
@[simp] theorem State.setST_readByte (b : Byte) (a : Nat) : (s.setST b).readByte a = s.readByte a := rfl
@[simp] theorem State.setST_pixel (b : Byte) (x y : Nat) : (s.setST b).pixel x y = s.pixel x y := rfl
@[simp] theorem State.setST_ea (b : Byte) (i : Nat) : (s.setST b).ea i = s.ea i := rfl
@[simp] theorem State.setST_firstKey (b : Byte) : (s.setST b).firstKey = s.firstKey := rfl

/-! setFB -/

@[simp] theorem State.setFB_V (f : Screen) : (s.setFB f).V = s.V := rfl
@[simp] theorem State.setFB_I (f : Screen) : (s.setFB f).I = s.I := rfl
@[simp] theorem State.setFB_pc (f : Screen) : (s.setFB f).pc = s.pc := rfl
@[simp] theorem State.setFB_sp (f : Screen) : (s.setFB f).sp = s.sp := rfl
@[simp] theorem State.setFB_stack (f : Screen) : (s.setFB f).stack = s.stack := rfl
@[simp] theorem State.setFB_DT (f : Screen) : (s.setFB f).DT = s.DT := rfl
@[simp] theorem State.setFB_ST (f : Screen) : (s.setFB f).ST = s.ST := rfl
@[simp] theorem State.setFB_FB (f : Screen) : (s.setFB f).FB = f := rfl
@[simp] theorem State.setFB_mem (f : Screen) : (s.setFB f).mem = s.mem := rfl
@[simp] theorem State.setFB_keys (f : Screen) : (s.setFB f).keys = s.keys := rfl
@[simp] theorem State.setFB_phase (f : Screen) : (s.setFB f).phase = s.phase := rfl
@[simp] theorem State.setFB_res (f : Screen) : (s.setFB f).res = s.res := rfl
@[simp] theorem State.setFB_outcome (f : Screen) : (s.setFB f).outcome = s.outcome := rfl
@[simp] theorem State.setFB_cycled (f : Screen) : (s.setFB f).cycled = s.cycled := rfl
@[simp] theorem State.setFB_loaded (f : Screen) : (s.setFB f).loaded = s.loaded := rfl
@[simp] theorem State.setFB_draws (f : Screen) : (s.setFB f).draws = s.draws := rfl
@[simp] theorem State.setFB_schedule (f : Screen) : (s.setFB f).schedule = s.schedule := rfl
@[simp] theorem State.setFB_reg (f : Screen) (q : Nib) : (s.setFB f).reg q = s.reg q := rfl
@[simp] theorem State.setFB_slot (f : Screen) (j : Nib) : (s.setFB f).slot j = s.slot j := rfl
@[simp] theorem State.setFB_key (f : Screen) (j : Nib) : (s.setFB f).key j = s.key j := rfl
@[simp] theorem State.setFB_readByte (f : Screen) (a : Nat) : (s.setFB f).readByte a = s.readByte a := rfl
@[simp] theorem State.setFB_ea (f : Screen) (i : Nat) : (s.setFB f).ea i = s.ea i := rfl
@[simp] theorem State.setFB_firstKey (f : Screen) : (s.setFB f).firstKey = s.firstKey := rfl

/-! setMem -/

@[simp] theorem State.setMem_V (m : Memory) : (s.setMem m).V = s.V := rfl
@[simp] theorem State.setMem_I (m : Memory) : (s.setMem m).I = s.I := rfl
@[simp] theorem State.setMem_pc (m : Memory) : (s.setMem m).pc = s.pc := rfl
@[simp] theorem State.setMem_sp (m : Memory) : (s.setMem m).sp = s.sp := rfl
@[simp] theorem State.setMem_stack (m : Memory) : (s.setMem m).stack = s.stack := rfl
@[simp] theorem State.setMem_DT (m : Memory) : (s.setMem m).DT = s.DT := rfl
@[simp] theorem State.setMem_ST (m : Memory) : (s.setMem m).ST = s.ST := rfl
@[simp] theorem State.setMem_FB (m : Memory) : (s.setMem m).FB = s.FB := rfl
@[simp] theorem State.setMem_mem (m : Memory) : (s.setMem m).mem = m := rfl
@[simp] theorem State.setMem_keys (m : Memory) : (s.setMem m).keys = s.keys := rfl
@[simp] theorem State.setMem_phase (m : Memory) : (s.setMem m).phase = s.phase := rfl
@[simp] theorem State.setMem_res (m : Memory) : (s.setMem m).res = s.res := rfl
@[simp] theorem State.setMem_outcome (m : Memory) : (s.setMem m).outcome = s.outcome := rfl
@[simp] theorem State.setMem_cycled (m : Memory) : (s.setMem m).cycled = s.cycled := rfl
@[simp] theorem State.setMem_loaded (m : Memory) : (s.setMem m).loaded = s.loaded := rfl
@[simp] theorem State.setMem_draws (m : Memory) : (s.setMem m).draws = s.draws := rfl
@[simp] theorem State.setMem_schedule (m : Memory) : (s.setMem m).schedule = s.schedule := rfl
@[simp] theorem State.setMem_reg (m : Memory) (q : Nib) : (s.setMem m).reg q = s.reg q := rfl
@[simp] theorem State.setMem_slot (m : Memory) (j : Nib) : (s.setMem m).slot j = s.slot j := rfl
@[simp] theorem State.setMem_key (m : Memory) (j : Nib) : (s.setMem m).key j = s.key j := rfl
@[simp] theorem State.setMem_pixel (m : Memory) (x y : Nat) : (s.setMem m).pixel x y = s.pixel x y := rfl
@[simp] theorem State.setMem_ea (m : Memory) (i : Nat) : (s.setMem m).ea i = s.ea i := rfl
@[simp] theorem State.setMem_firstKey (m : Memory) : (s.setMem m).firstKey = s.firstKey := rfl

/-! setKeys -/

@[simp] theorem State.setKeys_V (k : BitVec 16) : (s.setKeys k).V = s.V := rfl
@[simp] theorem State.setKeys_I (k : BitVec 16) : (s.setKeys k).I = s.I := rfl
@[simp] theorem State.setKeys_pc (k : BitVec 16) : (s.setKeys k).pc = s.pc := rfl
@[simp] theorem State.setKeys_sp (k : BitVec 16) : (s.setKeys k).sp = s.sp := rfl
@[simp] theorem State.setKeys_stack (k : BitVec 16) : (s.setKeys k).stack = s.stack := rfl
@[simp] theorem State.setKeys_DT (k : BitVec 16) : (s.setKeys k).DT = s.DT := rfl
@[simp] theorem State.setKeys_ST (k : BitVec 16) : (s.setKeys k).ST = s.ST := rfl
@[simp] theorem State.setKeys_FB (k : BitVec 16) : (s.setKeys k).FB = s.FB := rfl
@[simp] theorem State.setKeys_mem (k : BitVec 16) : (s.setKeys k).mem = s.mem := rfl
@[simp] theorem State.setKeys_keys (k : BitVec 16) : (s.setKeys k).keys = k := rfl
@[simp] theorem State.setKeys_phase (k : BitVec 16) : (s.setKeys k).phase = s.phase := rfl
@[simp] theorem State.setKeys_res (k : BitVec 16) : (s.setKeys k).res = s.res := rfl
@[simp] theorem State.setKeys_outcome (k : BitVec 16) : (s.setKeys k).outcome = s.outcome := rfl
@[simp] theorem State.setKeys_cycled (k : BitVec 16) : (s.setKeys k).cycled = s.cycled := rfl
@[simp] theorem State.setKeys_loaded (k : BitVec 16) : (s.setKeys k).loaded = s.loaded := rfl
@[simp] theorem State.setKeys_draws (k : BitVec 16) : (s.setKeys k).draws = s.draws := rfl
@[simp] theorem State.setKeys_schedule (k : BitVec 16) : (s.setKeys k).schedule = s.schedule := rfl
@[simp] theorem State.setKeys_reg (k : BitVec 16) (q : Nib) : (s.setKeys k).reg q = s.reg q := rfl
@[simp] theorem State.setKeys_slot (k : BitVec 16) (j : Nib) : (s.setKeys k).slot j = s.slot j := rfl
@[simp] theorem State.setKeys_readByte (k : BitVec 16) (a : Nat) : (s.setKeys k).readByte a = s.readByte a := rfl
@[simp] theorem State.setKeys_pixel (k : BitVec 16) (x y : Nat) : (s.setKeys k).pixel x y = s.pixel x y := rfl
@[simp] theorem State.setKeys_ea (k : BitVec 16) (i : Nat) : (s.setKeys k).ea i = s.ea i := rfl

/-! setPhase -/

@[simp] theorem State.setPhase_V (p : Phase) : (s.setPhase p).V = s.V := rfl
@[simp] theorem State.setPhase_I (p : Phase) : (s.setPhase p).I = s.I := rfl
@[simp] theorem State.setPhase_pc (p : Phase) : (s.setPhase p).pc = s.pc := rfl
@[simp] theorem State.setPhase_sp (p : Phase) : (s.setPhase p).sp = s.sp := rfl
@[simp] theorem State.setPhase_stack (p : Phase) : (s.setPhase p).stack = s.stack := rfl
@[simp] theorem State.setPhase_DT (p : Phase) : (s.setPhase p).DT = s.DT := rfl
@[simp] theorem State.setPhase_ST (p : Phase) : (s.setPhase p).ST = s.ST := rfl
@[simp] theorem State.setPhase_FB (p : Phase) : (s.setPhase p).FB = s.FB := rfl
@[simp] theorem State.setPhase_mem (p : Phase) : (s.setPhase p).mem = s.mem := rfl
@[simp] theorem State.setPhase_keys (p : Phase) : (s.setPhase p).keys = s.keys := rfl
@[simp] theorem State.setPhase_phase (p : Phase) : (s.setPhase p).phase = p := rfl
@[simp] theorem State.setPhase_res (p : Phase) : (s.setPhase p).res = s.res := rfl
@[simp] theorem State.setPhase_outcome (p : Phase) : (s.setPhase p).outcome = s.outcome := rfl
@[simp] theorem State.setPhase_cycled (p : Phase) : (s.setPhase p).cycled = s.cycled := rfl
@[simp] theorem State.setPhase_loaded (p : Phase) : (s.setPhase p).loaded = s.loaded := rfl
@[simp] theorem State.setPhase_draws (p : Phase) : (s.setPhase p).draws = s.draws := rfl
@[simp] theorem State.setPhase_schedule (p : Phase) : (s.setPhase p).schedule = s.schedule := rfl
@[simp] theorem State.setPhase_reg (p : Phase) (q : Nib) : (s.setPhase p).reg q = s.reg q := rfl
@[simp] theorem State.setPhase_slot (p : Phase) (j : Nib) : (s.setPhase p).slot j = s.slot j := rfl
@[simp] theorem State.setPhase_key (p : Phase) (j : Nib) : (s.setPhase p).key j = s.key j := rfl
@[simp] theorem State.setPhase_readByte (p : Phase) (a : Nat) : (s.setPhase p).readByte a = s.readByte a := rfl
@[simp] theorem State.setPhase_pixel (p : Phase) (x y : Nat) : (s.setPhase p).pixel x y = s.pixel x y := rfl
@[simp] theorem State.setPhase_ea (p : Phase) (i : Nat) : (s.setPhase p).ea i = s.ea i := rfl
@[simp] theorem State.setPhase_firstKey (p : Phase) : (s.setPhase p).firstKey = s.firstKey := rfl

/-! setOutcome -/

@[simp] theorem State.setOutcome_V (o : Option EngineOutcome) : (s.setOutcome o).V = s.V := rfl
@[simp] theorem State.setOutcome_I (o : Option EngineOutcome) : (s.setOutcome o).I = s.I := rfl
@[simp] theorem State.setOutcome_pc (o : Option EngineOutcome) : (s.setOutcome o).pc = s.pc := rfl
@[simp] theorem State.setOutcome_sp (o : Option EngineOutcome) : (s.setOutcome o).sp = s.sp := rfl
@[simp] theorem State.setOutcome_stack (o : Option EngineOutcome) : (s.setOutcome o).stack = s.stack := rfl
@[simp] theorem State.setOutcome_DT (o : Option EngineOutcome) : (s.setOutcome o).DT = s.DT := rfl
@[simp] theorem State.setOutcome_ST (o : Option EngineOutcome) : (s.setOutcome o).ST = s.ST := rfl
@[simp] theorem State.setOutcome_FB (o : Option EngineOutcome) : (s.setOutcome o).FB = s.FB := rfl
@[simp] theorem State.setOutcome_mem (o : Option EngineOutcome) : (s.setOutcome o).mem = s.mem := rfl
@[simp] theorem State.setOutcome_keys (o : Option EngineOutcome) : (s.setOutcome o).keys = s.keys := rfl
@[simp] theorem State.setOutcome_phase (o : Option EngineOutcome) : (s.setOutcome o).phase = s.phase := rfl
@[simp] theorem State.setOutcome_res (o : Option EngineOutcome) : (s.setOutcome o).res = s.res := rfl
@[simp] theorem State.setOutcome_outcome (o : Option EngineOutcome) : (s.setOutcome o).outcome = o := rfl
@[simp] theorem State.setOutcome_cycled (o : Option EngineOutcome) : (s.setOutcome o).cycled = s.cycled := rfl
@[simp] theorem State.setOutcome_loaded (o : Option EngineOutcome) : (s.setOutcome o).loaded = s.loaded := rfl
@[simp] theorem State.setOutcome_draws (o : Option EngineOutcome) : (s.setOutcome o).draws = s.draws := rfl
@[simp] theorem State.setOutcome_schedule (o : Option EngineOutcome) : (s.setOutcome o).schedule = s.schedule := rfl
@[simp] theorem State.setOutcome_reg (o : Option EngineOutcome) (q : Nib) : (s.setOutcome o).reg q = s.reg q := rfl
@[simp] theorem State.setOutcome_slot (o : Option EngineOutcome) (j : Nib) : (s.setOutcome o).slot j = s.slot j := rfl
@[simp] theorem State.setOutcome_key (o : Option EngineOutcome) (j : Nib) : (s.setOutcome o).key j = s.key j := rfl
@[simp] theorem State.setOutcome_readByte (o : Option EngineOutcome) (a : Nat) : (s.setOutcome o).readByte a = s.readByte a := rfl
@[simp] theorem State.setOutcome_pixel (o : Option EngineOutcome) (x y : Nat) : (s.setOutcome o).pixel x y = s.pixel x y := rfl
@[simp] theorem State.setOutcome_ea (o : Option EngineOutcome) (i : Nat) : (s.setOutcome o).ea i = s.ea i := rfl
@[simp] theorem State.setOutcome_firstKey (o : Option EngineOutcome) : (s.setOutcome o).firstKey = s.firstKey := rfl

/-! setCycled -/

@[simp] theorem State.setCycled_V (c : Bool) : (s.setCycled c).V = s.V := rfl
@[simp] theorem State.setCycled_I (c : Bool) : (s.setCycled c).I = s.I := rfl
@[simp] theorem State.setCycled_pc (c : Bool) : (s.setCycled c).pc = s.pc := rfl
@[simp] theorem State.setCycled_sp (c : Bool) : (s.setCycled c).sp = s.sp := rfl
@[simp] theorem State.setCycled_stack (c : Bool) : (s.setCycled c).stack = s.stack := rfl
@[simp] theorem State.setCycled_DT (c : Bool) : (s.setCycled c).DT = s.DT := rfl
@[simp] theorem State.setCycled_ST (c : Bool) : (s.setCycled c).ST = s.ST := rfl
@[simp] theorem State.setCycled_FB (c : Bool) : (s.setCycled c).FB = s.FB := rfl
@[simp] theorem State.setCycled_mem (c : Bool) : (s.setCycled c).mem = s.mem := rfl
@[simp] theorem State.setCycled_keys (c : Bool) : (s.setCycled c).keys = s.keys := rfl
@[simp] theorem State.setCycled_phase (c : Bool) : (s.setCycled c).phase = s.phase := rfl
@[simp] theorem State.setCycled_res (c : Bool) : (s.setCycled c).res = s.res := rfl
@[simp] theorem State.setCycled_outcome (c : Bool) : (s.setCycled c).outcome = s.outcome := rfl
@[simp] theorem State.setCycled_cycled (c : Bool) : (s.setCycled c).cycled = c := rfl
@[simp] theorem State.setCycled_loaded (c : Bool) : (s.setCycled c).loaded = s.loaded := rfl
@[simp] theorem State.setCycled_draws (c : Bool) : (s.setCycled c).draws = s.draws := rfl
@[simp] theorem State.setCycled_schedule (c : Bool) : (s.setCycled c).schedule = s.schedule := rfl
@[simp] theorem State.setCycled_reg (c : Bool) (q : Nib) : (s.setCycled c).reg q = s.reg q := rfl
@[simp] theorem State.setCycled_slot (c : Bool) (j : Nib) : (s.setCycled c).slot j = s.slot j := rfl
@[simp] theorem State.setCycled_key (c : Bool) (j : Nib) : (s.setCycled c).key j = s.key j := rfl
@[simp] theorem State.setCycled_readByte (c : Bool) (a : Nat) : (s.setCycled c).readByte a = s.readByte a := rfl
@[simp] theorem State.setCycled_pixel (c : Bool) (x y : Nat) : (s.setCycled c).pixel x y = s.pixel x y := rfl
@[simp] theorem State.setCycled_ea (c : Bool) (i : Nat) : (s.setCycled c).ea i = s.ea i := rfl
@[simp] theorem State.setCycled_firstKey (c : Bool) : (s.setCycled c).firstKey = s.firstKey := rfl

/-! setLoaded -/

@[simp] theorem State.setLoaded_V (c : Bool) : (s.setLoaded c).V = s.V := rfl
@[simp] theorem State.setLoaded_I (c : Bool) : (s.setLoaded c).I = s.I := rfl
@[simp] theorem State.setLoaded_pc (c : Bool) : (s.setLoaded c).pc = s.pc := rfl
@[simp] theorem State.setLoaded_sp (c : Bool) : (s.setLoaded c).sp = s.sp := rfl
@[simp] theorem State.setLoaded_stack (c : Bool) : (s.setLoaded c).stack = s.stack := rfl
@[simp] theorem State.setLoaded_DT (c : Bool) : (s.setLoaded c).DT = s.DT := rfl
@[simp] theorem State.setLoaded_ST (c : Bool) : (s.setLoaded c).ST = s.ST := rfl
@[simp] theorem State.setLoaded_FB (c : Bool) : (s.setLoaded c).FB = s.FB := rfl
@[simp] theorem State.setLoaded_mem (c : Bool) : (s.setLoaded c).mem = s.mem := rfl
@[simp] theorem State.setLoaded_keys (c : Bool) : (s.setLoaded c).keys = s.keys := rfl
@[simp] theorem State.setLoaded_phase (c : Bool) : (s.setLoaded c).phase = s.phase := rfl
@[simp] theorem State.setLoaded_res (c : Bool) : (s.setLoaded c).res = s.res := rfl
@[simp] theorem State.setLoaded_outcome (c : Bool) : (s.setLoaded c).outcome = s.outcome := rfl
@[simp] theorem State.setLoaded_cycled (c : Bool) : (s.setLoaded c).cycled = s.cycled := rfl
@[simp] theorem State.setLoaded_loaded (c : Bool) : (s.setLoaded c).loaded = c := rfl
@[simp] theorem State.setLoaded_draws (c : Bool) : (s.setLoaded c).draws = s.draws := rfl
@[simp] theorem State.setLoaded_schedule (c : Bool) : (s.setLoaded c).schedule = s.schedule := rfl
@[simp] theorem State.setLoaded_reg (c : Bool) (q : Nib) : (s.setLoaded c).reg q = s.reg q := rfl
@[simp] theorem State.setLoaded_slot (c : Bool) (j : Nib) : (s.setLoaded c).slot j = s.slot j := rfl
@[simp] theorem State.setLoaded_key (c : Bool) (j : Nib) : (s.setLoaded c).key j = s.key j := rfl
@[simp] theorem State.setLoaded_readByte (c : Bool) (a : Nat) : (s.setLoaded c).readByte a = s.readByte a := rfl
@[simp] theorem State.setLoaded_pixel (c : Bool) (x y : Nat) : (s.setLoaded c).pixel x y = s.pixel x y := rfl
@[simp] theorem State.setLoaded_ea (c : Bool) (i : Nat) : (s.setLoaded c).ea i = s.ea i := rfl
@[simp] theorem State.setLoaded_firstKey (c : Bool) : (s.setLoaded c).firstKey = s.firstKey := rfl

/-! setDraws -/

@[simp] theorem State.setDraws_V (n : Nat) : (s.setDraws n).V = s.V := rfl
@[simp] theorem State.setDraws_I (n : Nat) : (s.setDraws n).I = s.I := rfl
@[simp] theorem State.setDraws_pc (n : Nat) : (s.setDraws n).pc = s.pc := rfl
@[simp] theorem State.setDraws_sp (n : Nat) : (s.setDraws n).sp = s.sp := rfl
@[simp] theorem State.setDraws_stack (n : Nat) : (s.setDraws n).stack = s.stack := rfl
@[simp] theorem State.setDraws_DT (n : Nat) : (s.setDraws n).DT = s.DT := rfl
@[simp] theorem State.setDraws_ST (n : Nat) : (s.setDraws n).ST = s.ST := rfl
@[simp] theorem State.setDraws_FB (n : Nat) : (s.setDraws n).FB = s.FB := rfl
@[simp] theorem State.setDraws_mem (n : Nat) : (s.setDraws n).mem = s.mem := rfl
@[simp] theorem State.setDraws_keys (n : Nat) : (s.setDraws n).keys = s.keys := rfl
@[simp] theorem State.setDraws_phase (n : Nat) : (s.setDraws n).phase = s.phase := rfl
@[simp] theorem State.setDraws_res (n : Nat) : (s.setDraws n).res = s.res := rfl
@[simp] theorem State.setDraws_outcome (n : Nat) : (s.setDraws n).outcome = s.outcome := rfl
@[simp] theorem State.setDraws_cycled (n : Nat) : (s.setDraws n).cycled = s.cycled := rfl
@[simp] theorem State.setDraws_loaded (n : Nat) : (s.setDraws n).loaded = s.loaded := rfl
@[simp] theorem State.setDraws_draws (n : Nat) : (s.setDraws n).draws = n := rfl
@[simp] theorem State.setDraws_schedule (n : Nat) : (s.setDraws n).schedule = s.schedule := rfl
@[simp] theorem State.setDraws_reg (n : Nat) (q : Nib) : (s.setDraws n).reg q = s.reg q := rfl
@[simp] theorem State.setDraws_slot (n : Nat) (j : Nib) : (s.setDraws n).slot j = s.slot j := rfl
@[simp] theorem State.setDraws_key (n : Nat) (j : Nib) : (s.setDraws n).key j = s.key j := rfl
@[simp] theorem State.setDraws_readByte (n : Nat) (a : Nat) : (s.setDraws n).readByte a = s.readByte a := rfl
@[simp] theorem State.setDraws_pixel (n : Nat) (x y : Nat) : (s.setDraws n).pixel x y = s.pixel x y := rfl
@[simp] theorem State.setDraws_ea (n : Nat) (i : Nat) : (s.setDraws n).ea i = s.ea i := rfl
@[simp] theorem State.setDraws_firstKey (n : Nat) : (s.setDraws n).firstKey = s.firstKey := rfl

/-! setSchedule -/

@[simp] theorem State.setSchedule_V (l : List AgentStep) : (s.setSchedule l).V = s.V := rfl
@[simp] theorem State.setSchedule_I (l : List AgentStep) : (s.setSchedule l).I = s.I := rfl
@[simp] theorem State.setSchedule_pc (l : List AgentStep) : (s.setSchedule l).pc = s.pc := rfl
@[simp] theorem State.setSchedule_sp (l : List AgentStep) : (s.setSchedule l).sp = s.sp := rfl
@[simp] theorem State.setSchedule_stack (l : List AgentStep) : (s.setSchedule l).stack = s.stack := rfl
@[simp] theorem State.setSchedule_DT (l : List AgentStep) : (s.setSchedule l).DT = s.DT := rfl
@[simp] theorem State.setSchedule_ST (l : List AgentStep) : (s.setSchedule l).ST = s.ST := rfl
@[simp] theorem State.setSchedule_FB (l : List AgentStep) : (s.setSchedule l).FB = s.FB := rfl
@[simp] theorem State.setSchedule_mem (l : List AgentStep) : (s.setSchedule l).mem = s.mem := rfl
@[simp] theorem State.setSchedule_keys (l : List AgentStep) : (s.setSchedule l).keys = s.keys := rfl
@[simp] theorem State.setSchedule_phase (l : List AgentStep) : (s.setSchedule l).phase = s.phase := rfl
@[simp] theorem State.setSchedule_res (l : List AgentStep) : (s.setSchedule l).res = s.res := rfl
@[simp] theorem State.setSchedule_outcome (l : List AgentStep) : (s.setSchedule l).outcome = s.outcome := rfl
@[simp] theorem State.setSchedule_cycled (l : List AgentStep) : (s.setSchedule l).cycled = s.cycled := rfl
@[simp] theorem State.setSchedule_loaded (l : List AgentStep) : (s.setSchedule l).loaded = s.loaded := rfl
@[simp] theorem State.setSchedule_draws (l : List AgentStep) : (s.setSchedule l).draws = s.draws := rfl
@[simp] theorem State.setSchedule_schedule (l : List AgentStep) : (s.setSchedule l).schedule = l := rfl
@[simp] theorem State.setSchedule_reg (l : List AgentStep) (q : Nib) : (s.setSchedule l).reg q = s.reg q := rfl
@[simp] theorem State.setSchedule_slot (l : List AgentStep) (j : Nib) : (s.setSchedule l).slot j = s.slot j := rfl
@[simp] theorem State.setSchedule_key (l : List AgentStep) (j : Nib) : (s.setSchedule l).key j = s.key j := rfl
@[simp] theorem State.setSchedule_readByte (l : List AgentStep) (a : Nat) : (s.setSchedule l).readByte a = s.readByte a := rfl
@[simp] theorem State.setSchedule_pixel (l : List AgentStep) (x y : Nat) : (s.setSchedule l).pixel x y = s.pixel x y := rfl
@[simp] theorem State.setSchedule_ea (l : List AgentStep) (i : Nat) : (s.setSchedule l).ea i = s.ea i := rfl
@[simp] theorem State.setSchedule_firstKey (l : List AgentStep) : (s.setSchedule l).firstKey = s.firstKey := rfl

/-! The accessors at their own updates. -/

/-- A register reads what was last written to it; the others keep their value (10_state.md R20). -/
@[simp] theorem State.setReg_reg (r q : Nib) (b : Byte) : (s.setReg r b).reg q = if q = r then b else s.reg q := by
  simp only [State.setReg, State.reg, Fin.getElem_fin, Vector.getElem_set]
  split <;> rename_i h
  · rw [if_pos (Fin.ext h.symm)]
  · rw [if_neg fun e => h (congrArg Fin.val e.symm)]

/-- A stack slot reads what was last written to it; the others keep their value (10_state.md R25). -/
@[simp] theorem State.setSlot_slot (k j : Nib) (w : Word) :
    (s.setSlot k w).slot j = if j = k then w else s.slot j := by
  simp only [State.setSlot, State.slot, Fin.getElem_fin, Vector.getElem_set]
  split <;> rename_i h
  · rw [if_pos (Fin.ext h.symm)]
  · rw [if_neg fun e => h (congrArg Fin.val e.symm)]

@[simp] theorem State.setI_ea (w : Word) (i : Nat) : (s.setI w).ea i = w.toNat + i := rfl

@[simp] theorem State.setKeys_key (k : BitVec 16) (j : Nib) : (s.setKeys k).key j = k.getLsbD j.val := rfl

@[simp] theorem State.setMem_readByte (m : Memory) (a : Nat) :
    (s.setMem m).readByte a = Memory.read m (resolve a) := rfl

@[simp] theorem State.setFB_pixel (f : Screen) (x y : Nat) :
    (s.setFB f).pixel x y = Screen.lit f (cellOf s.res x y) := rfl

/-- Two register files that read the same are the same. -/
theorem State.V_ext {s t : State} (h : ∀ r, t.reg r = s.reg r) : t.V = s.V :=
  Vector.ext fun i hi => h ⟨i, hi⟩

/-- Two stacks that read the same are the same. -/
theorem State.stack_ext {s t : State} (h : ∀ k, t.slot k = s.slot k) : t.stack = s.stack :=
  Vector.ext fun i hi => h ⟨i, hi⟩

end Sys2Proof.Machine
end

