-- ==== Sys2Proof/Laws/Screen.lean ====
section
/-! SUPPORT. What the drawing unit does: one toggle, the toggles of a list of positions, the cells of a sprite, and the
canonical form of the framebuffer kept. -/

namespace Sys2Proof.Machine

theorem Screen.lit_iff (f : Screen) (c : Nat) : Screen.lit f c = true ↔ c ∈ f := by simp [Screen.lit]

theorem Screen.lit_eq (f : Screen) (c : Nat) : Screen.lit f c = decide (c ∈ f) := by simp [Screen.lit]

theorem Screen.mem_put (f : Screen) (c d : Nat) : d ∈ Screen.put f c ↔ d = c ∨ d ∈ f := by
  induction f with
  | nil => simp [Screen.put]
  | cons e f ih =>
    by_cases h : c < e
    · simp [Screen.put, h]
    · simp only [Screen.put, h, if_false, List.mem_cons, ih]
      tauto

/-- A toggle turns its own cell over and leaves every other cell alone, in every list (R151). -/
@[simp] theorem Screen.lit_toggle (f : Screen) (c d : Nat) :
    Screen.lit (Screen.toggle f c) d = if d = c then !Screen.lit f c else Screen.lit f d := by
  simp only [Screen.lit_eq]
  by_cases hc : c ∈ f <;> by_cases hd : d = c <;> simp_all [Screen.toggle, Screen.lit_eq, Screen.mem_put]

theorem Screen.wfFrom_cons (n lo c : Nat) (f : Screen) :
    Screen.wfFrom n lo (c :: f) = true ↔ lo ≤ c ∧ c < n ∧ Screen.wfFrom n (c + 1) f = true := by
  simp [Screen.wfFrom, and_assoc]

theorem Screen.wfFrom_mono {n lo lo' : Nat} (h : lo' ≤ lo) (f : Screen) :
    Screen.wfFrom n lo f = true → Screen.wfFrom n lo' f = true := by
  cases f with
  | nil => exact fun _ => rfl
  | cons c f =>
    rw [Screen.wfFrom_cons, Screen.wfFrom_cons]
    exact fun ⟨h1, h2⟩ => ⟨by omega, h2⟩

theorem Screen.wfFrom_filter {n lo : Nat} (f : Screen) (c : Nat) :
    Screen.wfFrom n lo f = true → Screen.wfFrom n lo (f.filter fun d => d != c) = true := by
  induction f generalizing lo with
  | nil => exact id
  | cons d f ih =>
    rw [Screen.wfFrom_cons]
    rintro ⟨h1, h2, h3⟩
    by_cases hd : d = c
    · simpa [hd] using Screen.wfFrom_mono (by omega) _ (ih h3)
    · rw [List.filter_cons_of_pos (by simpa using hd), Screen.wfFrom_cons]
      exact ⟨h1, h2, ih h3⟩

theorem Screen.wfFrom_put {n lo : Nat} (f : Screen) (c : Nat) (hlo : lo ≤ c) (hc : c < n) (hf : c ∉ f) :
    Screen.wfFrom n lo f = true → Screen.wfFrom n lo (Screen.put f c) = true := by
  induction f generalizing lo with
  | nil => exact fun _ => (Screen.wfFrom_cons ..).mpr ⟨hlo, hc, rfl⟩
  | cons d f ih =>
    rw [Screen.wfFrom_cons]
    rintro ⟨h1, h2, h3⟩
    have hne : c ≠ d := fun e => hf (by simp [e])
    by_cases hlt : c < d
    · simp only [Screen.put, hlt, if_true]
      exact (Screen.wfFrom_cons ..).mpr ⟨hlo, hc, (Screen.wfFrom_cons ..).mpr ⟨by omega, h2, h3⟩⟩
    · simp only [Screen.put, hlt, if_false]
      exact (Screen.wfFrom_cons ..).mpr ⟨h1, h2, ih (by omega) (fun h => hf (by simp [h])) h3⟩

/-- Toggling a cell the screen has keeps the canonical form. -/
theorem Screen.wf_toggle (r : Config.Resolution) (f : Screen) (c : Nat) (hc : c < r.width * r.height)
    (h : Screen.wf r f = true) : Screen.wf r (Screen.toggle f c) = true := by
  by_cases hl : Screen.lit f c = true
  · simpa [Screen.wf, Screen.toggle, hl] using Screen.wfFrom_filter f c h
  · have hf : c ∉ f := fun hm => hl ((Screen.lit_iff f c).mpr hm)
    simpa [Screen.wf, Screen.toggle, hl] using Screen.wfFrom_put f c (Nat.zero_le _) hc hf h

theorem Resolution.width_pos (r : Config.Resolution) : 0 < r.width := by cases r <;> decide

theorem Resolution.height_pos (r : Config.Resolution) : 0 < r.height := by cases r <;> decide

/-- A requested position always addresses a cell the screen has: nothing is clipped (R150). -/
theorem cellOf_lt (r : Config.Resolution) (cx cy : Nat) : cellOf r cx cy < r.width * r.height := by
  have h1 := Nat.mod_lt cx (Resolution.width_pos r)
  have h2 := Nat.mod_lt cy (Resolution.height_pos r)
  calc cellOf r cx cy < (cy % r.height) * r.width + r.width := by unfold cellOf; omega
    _ = (cy % r.height + 1) * r.width := by ring
    _ ≤ r.height * r.width := Nat.mul_le_mul_right _ h2
    _ = r.width * r.height := Nat.mul_comm ..

/-- Two positions address one cell exactly when they agree modulo the screen's size (R150). -/
theorem cellOf_eq_iff (r : Config.Resolution) (cx cy dx dy : Nat) :
    cellOf r cx cy = cellOf r dx dy ↔ cx % r.width = dx % r.width ∧ cy % r.height = dy % r.height := by
  have hw := Resolution.width_pos r
  constructor
  · intro h
    have hm := congrArg (· % r.width) h
    have hd := congrArg (· / r.width) h
    simp only [cellOf, Nat.mul_add_mod', Nat.mod_mod] at hm
    refine ⟨hm, ?_⟩
    simpa [cellOf, Nat.mul_comm _ r.width, Nat.mul_add_div hw, Nat.div_eq_of_lt (Nat.mod_lt _ hw)] using hd
  · rintro ⟨h1, h2⟩
    simp [cellOf, h1, h2]

/-- The cells a list of positions addresses. -/
def cellsOf (r : Config.Resolution) (ps : List (Nat × Nat)) : List Nat := ps.map fun p => cellOf r p.1 p.2

/-- Toggling at positions of distinct cells turns over exactly those cells and reports whether one was lit (R155). -/
theorem setPixels_spec (r : Config.Resolution) (ps : List (Nat × Nat)) (f : Screen) (c : Bool)
    (hnd : (cellsOf r ps).Nodup) :
    (∀ d, Screen.lit (setPixels r (f, c) ps).1 d = (Screen.lit f d ^^ decide (d ∈ cellsOf r ps))) ∧
      (setPixels r (f, c) ps).2 = (c || (cellsOf r ps).any fun d => Screen.lit f d) := by
  induction ps generalizing f c with
  | nil => simp [setPixels, cellsOf]
  | cons p ps ih =>
    have hnd' : cellOf r p.1 p.2 ∉ cellsOf r ps ∧ (cellsOf r ps).Nodup := List.nodup_cons.mp hnd
    obtain ⟨h1, h2⟩ := ih (setPixel r f p.1 p.2).1 (c || (setPixel r f p.1 p.2).2) hnd'.2
    have hcons : cellsOf r (p :: ps) = cellOf r p.1 p.2 :: cellsOf r ps := rfl
    refine ⟨fun d => ?_, ?_⟩
    · rw [setPixels, h1 d, hcons]
      by_cases hd : d = cellOf r p.1 p.2
      · subst hd
        simp [setPixel, hnd'.1]
      · simp [setPixel, hd]
    · rw [setPixels, h2, hcons, List.any_cons, Bool.or_assoc]
      have : (cellsOf r ps).any (fun d => Screen.lit (setPixel r f p.1 p.2).1 d) =
          (cellsOf r ps).any fun d => Screen.lit f d := by
        rw [Bool.eq_iff_iff, List.any_eq_true, List.any_eq_true]
        refine exists_congr fun d => and_congr_right fun hm => ?_
        have : d ≠ cellOf r p.1 p.2 := fun e => hnd'.1 (e ▸ hm)
        simp [setPixel, this]
      rw [this]
      rfl

/-- Toggling at any positions keeps the canonical form. -/
theorem setPixels_wf (r : Config.Resolution) (ps : List (Nat × Nat)) (f : Screen) (c : Bool)
    (h : Screen.wf r f = true) : Screen.wf r (setPixels r (f, c) ps).1 = true := by
  induction ps generalizing f c with
  | nil => exact h
  | cons p ps ih => exact ih _ _ (Screen.wf_toggle r f _ (cellOf_lt ..) h)

theorem mem_rowColumns (byte : Byte) (col : Nat) :
    col ∈ rowColumns byte ↔ col < 8 ∧ byte.getLsbD (7 - col) = true := by
  simp only [rowColumns, List.mem_filter, List.mem_cons, List.not_mem_nil, or_false]
  exact and_congr_left fun _ => by omega

/-- The positions of a sprite: one for each 1 bit, row by row, most significant bit leftmost (R152). -/
theorem mem_spritePixels (cx cy : Nat) (bytes : List Byte) (p : Nat × Nat) :
    p ∈ spritePixels cx cy bytes ↔
      ∃ row col byte, bytes[row]? = some byte ∧ col < 8 ∧ byte.getLsbD (7 - col) = true ∧
        p = (cx + col, cy + row) := by
  induction bytes generalizing cy with
  | nil => simp [spritePixels]
  | cons b bytes ih =>
    simp only [spritePixels, List.mem_append, List.mem_map, mem_rowColumns, ih]
    constructor
    · rintro (⟨col, ⟨h1, h2⟩, rfl⟩ | ⟨row, col, byte, h0, h1, h2, rfl⟩)
      · exact ⟨0, col, b, rfl, h1, h2, rfl⟩
      · exact ⟨row + 1, col, byte, h0, h1, h2, by rw [show cy + (row + 1) = cy + 1 + row by omega]⟩
    · rintro ⟨row, col, byte, h0, h1, h2, rfl⟩
      cases row with
      | zero => exact .inl ⟨col, ⟨h1, by simp_all⟩, rfl⟩
      | succ row =>
        exact .inr ⟨row, col, byte, by simpa using h0, h1, h2, by rw [show cy + (row + 1) = cy + 1 + row by omega]⟩

theorem spritePixels_nodup (cx cy : Nat) (bytes : List Byte) : (spritePixels cx cy bytes).Nodup := by
  induction bytes generalizing cy with
  | nil => exact List.nodup_nil
  | cons b bytes ih =>
    refine List.nodup_append.mpr ⟨?_, ih _, ?_⟩
    · refine List.Nodup.map (fun a c h => by simpa using h) (List.Nodup.filter _ (by decide))
    · rintro p hp q hq rfl
      obtain ⟨col, _, rfl⟩ := List.mem_map.mp hp
      obtain ⟨row, col', byte, _, _, _, h⟩ := (mem_spritePixels ..).mp hq
      have := congrArg Prod.snd h
      simp at this
      omega

/-- "The cells touched by one call are pairwise distinct", for a sprite of at most 15 rows (R152). -/
theorem spriteCells_nodup (r : Config.Resolution) (cx cy : Nat) (bytes : List Byte) (h : bytes.length ≤ 15) :
    (cellsOf r (spritePixels cx cy bytes)).Nodup := by
  refine List.Nodup.map_on ?_ (spritePixels_nodup ..)
  intro p hp q hq hpq
  obtain ⟨row, col, b, h0, h1, _, rfl⟩ := (mem_spritePixels ..).mp hp
  obtain ⟨row', col', b', h0', h1', _, rfl⟩ := (mem_spritePixels ..).mp hq
  have hr : row < bytes.length := (List.getElem?_eq_some_iff.mp h0).1
  have hr' : row' < bytes.length := (List.getElem?_eq_some_iff.mp h0').1
  obtain ⟨hx, hy⟩ := (cellOf_eq_iff ..).mp hpq
  have hcol : col = col' := by
    cases r <;> simp only [Config.Resolution.width] at hx <;> omega
  have hrow : row = row' := by
    cases r <;> simp only [Config.Resolution.height] at hy <;> omega
  rw [hcol, hrow]

/-- `write_sprite`, said once: the cells of the sprite's 1 bits are turned over, no other, and the collision is that one
of them was lit (R152, R155). -/
theorem writeSprite_spec (r : Config.Resolution) (f : Screen) (cx cy : Nat) (bytes : List Byte)
    (h : bytes.length ≤ 15) :
    (∀ d, Screen.lit (writeSprite r f cx cy bytes).1 d =
        (Screen.lit f d ^^ decide (d ∈ cellsOf r (spritePixels cx cy bytes)))) ∧
      (writeSprite r f cx cy bytes).2 =
        (cellsOf r (spritePixels cx cy bytes)).any fun d => Screen.lit f d := by
  simpa [writeSprite] using setPixels_spec r (spritePixels cx cy bytes) f false (spriteCells_nodup r cx cy bytes h)

theorem writeSprite_wf (r : Config.Resolution) (f : Screen) (cx cy : Nat) (bytes : List Byte)
    (h : Screen.wf r f = true) : Screen.wf r (writeSprite r f cx cy bytes).1 = true := setPixels_wf r _ f false h

theorem State.spriteBytes_length (s : State) (n : Nat) : (s.spriteBytes n).length = n := by simp [State.spriteBytes]

theorem State.spriteBytes_getElem? (s : State) (n row : Nat) :
    (s.spriteBytes n)[row]? = if row < n then some (s.readByte (s.ea row)) else none := by
  by_cases h : row < n <;> simp [State.spriteBytes, h]

end Sys2Proof.Machine
end

