-- ==== Sys2Proof/Laws/Memory.lean ====
section
/-! SUPPORT. What the memory operations do: a read after a write, and the canonical form kept. -/

namespace Sys2Proof.Machine

theorem Memory.read_drop_self (m : Memory) (a : Nat) : Memory.read (Memory.drop m a) a = unlisted a := by
  induction m with
  | nil => rfl
  | cons c m ih =>
    by_cases h : c.1 = a
    · simpa [Memory.drop, h] using ih
    · simpa [Memory.drop, Memory.read, h] using ih

theorem Memory.read_drop_ne (m : Memory) {a b : Nat} (h : b ≠ a) :
    Memory.read (Memory.drop m a) b = Memory.read m b := by
  induction m with
  | nil => rfl
  | cons c m ih =>
    by_cases hc : c.1 = a
    · simpa [Memory.drop, Memory.read, hc, h.symm] using ih
    · by_cases hb : c.1 = b <;> simp_all [Memory.drop, Memory.read]

theorem Memory.read_put_ne (m : Memory) {a b : Nat} (v : Byte) (h : b ≠ a) :
    Memory.read (Memory.put m a v) b = Memory.read m b := by
  induction m with
  | nil => simp [Memory.put, Memory.read, h.symm]
  | cons c m ih =>
    by_cases hc : a < c.1
    · simp [Memory.put, Memory.read, hc, h.symm]
    · simp [Memory.put, Memory.read, hc, ih]

/-- No entry of a list is for an address. -/
abbrev Memory.Absent (m : Memory) (a : Nat) : Prop := ∀ c ∈ m, c.1 ≠ a

theorem Memory.absent_drop (m : Memory) (a : Nat) : Memory.Absent (Memory.drop m a) a := by
  intro c hc
  simpa using (List.mem_filter.mp hc).2

theorem Memory.read_put_self (m : Memory) (a : Nat) (v : Byte) (h : Memory.Absent m a) :
    Memory.read (Memory.put m a v) a = v := by
  induction m with
  | nil => simp [Memory.put, Memory.read]
  | cons c m ih =>
    have hc : c.1 ≠ a := h c (by simp)
    by_cases hlt : a < c.1
    · simp [Memory.put, Memory.read, hlt]
    · simpa [Memory.put, Memory.read, hlt, hc] using ih fun d hd => h d (by simp [hd])

/-- A read after a write: the byte written at its address, the old byte elsewhere, in every list. -/
theorem Memory.read_write (m : Memory) (a b : Nat) (v : Byte) :
    Memory.read (Memory.write m a v) b = if b = a then v else Memory.read m b := by
  by_cases hb : b = a
  · subst hb
    by_cases hv : v = unlisted b
    · simp [Memory.write, hv, Memory.read_drop_self]
    · simp [Memory.write, hv, Memory.read_put_self _ _ _ (Memory.absent_drop m b)]
  · by_cases hv : v = unlisted a
    · simp [Memory.write, hv, hb, Memory.read_drop_ne m hb]
    · simp [Memory.write, hv, hb, Memory.read_put_ne _ v hb, Memory.read_drop_ne m hb]

theorem Memory.wfFrom_cons (lo k : Nat) (b : Byte) (m : Memory) :
    Memory.wfFrom lo ((k, b) :: m) = true ↔
      lo ≤ k ∧ k < Config.memSize ∧ b ≠ unlisted k ∧ Memory.wfFrom (k + 1) m = true := by
  simp [Memory.wfFrom, and_assoc]

theorem Memory.wfFrom_mono {lo lo' : Nat} (h : lo' ≤ lo) (m : Memory) :
    Memory.wfFrom lo m = true → Memory.wfFrom lo' m = true := by
  cases m with
  | nil => exact fun _ => rfl
  | cons c m =>
    rw [Memory.wfFrom_cons, Memory.wfFrom_cons]
    rintro ⟨h1, h2⟩
    exact ⟨by omega, h2⟩

theorem Memory.wfFrom_drop {lo : Nat} (m : Memory) (a : Nat) :
    Memory.wfFrom lo m = true → Memory.wfFrom lo (Memory.drop m a) = true := by
  induction m generalizing lo with
  | nil => exact id
  | cons c m ih =>
    rw [Memory.wfFrom_cons]
    rintro ⟨h1, h2, h3, h4⟩
    by_cases hc : c.1 = a
    · simpa [Memory.drop, hc] using Memory.wfFrom_mono (by omega) _ (ih h4)
    · have : Memory.drop (c :: m) a = c :: Memory.drop m a := by simp [Memory.drop, hc]
      rw [this, Memory.wfFrom_cons]
      exact ⟨h1, h2, h3, ih h4⟩

theorem Memory.wfFrom_put {lo : Nat} (m : Memory) (a : Nat) (v : Byte) (hlo : lo ≤ a) (ha : a < Config.memSize)
    (hv : v ≠ unlisted a) (habs : Memory.Absent m a) :
    Memory.wfFrom lo m = true → Memory.wfFrom lo (Memory.put m a v) = true := by
  induction m generalizing lo with
  | nil => exact fun _ => (Memory.wfFrom_cons ..).mpr ⟨hlo, ha, hv, rfl⟩
  | cons c m ih =>
    rw [Memory.wfFrom_cons]
    rintro ⟨h1, h2, h3, h4⟩
    have hc : c.1 ≠ a := habs c (by simp)
    by_cases hlt : a < c.1
    · simp only [Memory.put, hlt, if_true]
      exact (Memory.wfFrom_cons ..).mpr ⟨hlo, ha, hv, (Memory.wfFrom_cons ..).mpr ⟨by omega, h2, h3, h4⟩⟩
    · simp only [Memory.put, hlt, if_false]
      exact (Memory.wfFrom_cons ..).mpr ⟨h1, h2, h3, ih (by omega) (fun d hd => habs d (by simp [hd])) h4⟩

/-- A write to a resolved address keeps the canonical form. -/
theorem Memory.wf_write (m : Memory) (a : Nat) (v : Byte) (ha : a < Config.memSize) (h : Memory.wf m = true) :
    Memory.wf (Memory.write m a v) = true := by
  by_cases hv : v = unlisted a
  · simpa [Memory.wf, Memory.write, hv] using Memory.wfFrom_drop m a h
  · simpa [Memory.wf, Memory.write, hv] using
      Memory.wfFrom_put _ a v (Nat.zero_le _) ha hv (Memory.absent_drop m a) (Memory.wfFrom_drop m a h)

/-- In canonical form no address below the bound is listed, so the entries' addresses differ. -/
theorem Memory.read_of_wfFrom_lt {lo : Nat} (m : Memory) {a : Nat} (h : Memory.wfFrom lo m = true) (ha : a < lo) :
    Memory.read m a = unlisted a := by
  induction m generalizing lo with
  | nil => rfl
  | cons c m ih =>
    obtain ⟨h1, _, _, h4⟩ := (Memory.wfFrom_cons ..).mp h
    have hne : c.1 ≠ a := by omega
    simpa [Memory.read, hne] using ih h4 (by omega)

/-- Canonical memories that read the same everywhere are equal lists. -/
theorem Memory.ext_of_wfFrom {lo : Nat} (m m' : Memory) (h : Memory.wfFrom lo m = true)
    (h' : Memory.wfFrom lo m' = true) (hr : ∀ a, Memory.read m a = Memory.read m' a) : m = m' := by
  induction m generalizing lo m' with
  | nil =>
    cases m' with
    | nil => rfl
    | cons c m' =>
      obtain ⟨_, _, h3, _⟩ := (Memory.wfFrom_cons ..).mp h'
      exact absurd (by simpa [Memory.read] using (hr c.1).symm) h3
  | cons c m ih =>
    obtain ⟨h1, h2, h3, h4⟩ := (Memory.wfFrom_cons ..).mp h
    cases m' with
    | nil => exact absurd (by simpa [Memory.read] using hr c.1) h3
    | cons d m' =>
      obtain ⟨g1, g2, g3, g4⟩ := (Memory.wfFrom_cons ..).mp h'
      have key : c.1 = d.1 := by
        rcases Nat.lt_trichotomy c.1 d.1 with hlt | heq | hgt
        · have hne : d.1 ≠ c.1 := by omega
          have := hr c.1
          rw [show Memory.read (d :: m') c.1 = unlisted c.1 by
            simpa [Memory.read, hne] using Memory.read_of_wfFrom_lt m' g4 (by omega)] at this
          exact absurd (by simpa [Memory.read] using this) h3
        · exact heq
        · have hne : c.1 ≠ d.1 := by omega
          have := hr d.1
          rw [show Memory.read (c :: m) d.1 = unlisted d.1 by
            simpa [Memory.read, hne] using Memory.read_of_wfFrom_lt m h4 (by omega)] at this
          exact absurd (by simpa [Memory.read] using this.symm) g3
      have hval : c.2 = d.2 := by simpa [Memory.read, key] using hr d.1
      have htail : m = m' := by
        refine ih m' h4 (key ▸ g4) fun a => ?_
        by_cases ha : c.1 = a
        · subst ha
          rw [Memory.read_of_wfFrom_lt m h4 (by omega), Memory.read_of_wfFrom_lt m' g4 (by omega)]
        · have := hr a
          have hd : d.1 ≠ a := fun e => ha (key.trans e)
          simpa [Memory.read, ha, hd] using this
      rw [htail, show c = d from Prod.ext key hval]

theorem resolve_lt (a : Nat) : resolve a < Config.memSize := Nat.mod_lt _ (by decide)

/-- A byte read after a byte written, on the state: the same resolved address gives the byte written (R51, R58). -/
@[simp] theorem State.writeByte_readByte (s : State) (a b : Nat) (v : Byte) :
    (s.writeByte a v).readByte b = if resolve b = resolve a then v else s.readByte b := by
  simp [State.writeByte, State.readByte, Memory.read_write]

/-- Writing bytes touches memory alone. -/
theorem State.writeBytes_frame (s : State) (a : Nat) (bs : List Byte) :
    s.writeBytes a bs = s.setMem (s.writeBytes a bs).mem := by
  induction bs generalizing s a with
  | nil => rfl
  | cons b bs ih => rw [State.writeBytes, ih]; rfl

/-- A byte no written address resolves to is as before. -/
theorem State.writeBytes_readByte_other (s : State) (a b : Nat) (bs : List Byte)
    (h : ∀ i < bs.length, resolve b ≠ resolve (a + i)) : (s.writeBytes a bs).readByte b = s.readByte b := by
  induction bs generalizing s a with
  | nil => rfl
  | cons v bs ih =>
    rw [State.writeBytes, ih]
    · simpa using fun e => absurd e (h 0 (by simp))
    · intro i hi
      have := h (i + 1) (by simpa using hi)
      rwa [show a + 1 + i = a + (i + 1) by omega]

/-- At most 4096 bytes written upwards: each is read back at its own address. -/
theorem State.writeBytes_readByte (s : State) (a i : Nat) (bs : List Byte) (hlen : bs.length ≤ Config.memSize)
    (hi : i < bs.length) : (s.writeBytes a bs).readByte (a + i) = bs[i] := by
  induction bs generalizing s a i with
  | nil => simp at hi
  | cons v bs ih =>
    have hlen' : bs.length + 1 ≤ 4096 := by simpa [Config.memSize] using hlen
    cases i with
    | zero =>
      rw [State.writeBytes, State.writeBytes_readByte_other]
      · simp
      · intro j hj
        simp only [resolve, Config.memSize]
        omega
    | succ i =>
      rw [State.writeBytes, show a + (i + 1) = a + 1 + i by omega,
        ih _ _ _ (by simp only [Config.memSize]; omega) (by simpa using hi)]
      simp

/-- Writing bytes keeps memory's canonical form. -/
theorem State.wf_writeBytes (s : State) (a : Nat) (bs : List Byte) (h : Memory.wf s.mem = true) :
    Memory.wf (s.writeBytes a bs).mem = true := by
  induction bs generalizing s a with
  | nil => exact h
  | cons b bs ih => exact ih _ _ (Memory.wf_write _ _ _ (resolve_lt a) h)

/-- The memory right after reset is canonical. -/
theorem State.reset_memory_wf : Memory.wf State.reset.mem = true := rfl

end Sys2Proof.Machine
end

