-- ==== Sys2Proof/Laws/Transfer.lean ====
section
/-! SUPPORT. What the operand forms do: the registers a transfer names, the transfers between registers and memory, the
two writes of a flag-writing instruction, the skip, and the key a wait takes. -/

namespace Sys2Proof.Machine

theorem mem_allNibs (r : Nib) : r ∈ allNibs := by revert r; decide

theorem allNibs_nodup : allNibs.Nodup := by decide

/-- V0 to Vx, both ends in (R144, R145). -/
@[simp] theorem mem_regsUpTo (x r : Nib) : r ∈ regsUpTo x ↔ r ≤ x := by simp [regsUpTo, mem_allNibs]

theorem regsUpTo_nodup (x : Nib) : (regsUpTo x).Nodup := List.Nodup.filter _ allNibs_nodup

/-- "The resolved addresses `EA(0)` to `EA(15)` are pairwise distinct" (R146). -/
theorem State.resolve_ea_inj (s : State) (q r : Nib) (h : resolve (s.ea q.val) = resolve (s.ea r.val)) : q = r := by
  have hq := q.isLt
  have hr := r.isLt
  simp only [resolve, State.ea, Config.memSize] at h
  exact Fin.ext (by omega)

/-- Storing registers touches memory alone (R144). -/
theorem State.storeRegs_frame (s : State) (l : List Nib) : s.storeRegs l = s.setMem (s.storeRegs l).mem := by
  induction l generalizing s with
  | nil => rfl
  | cons r l ih => rw [State.storeRegs, ih]; rfl

/-- A byte no stored register's address resolves to is as before (R144). -/
theorem State.storeRegs_readByte_other (s : State) (l : List Nib) (a : Nat)
    (h : ∀ r ∈ l, resolve a ≠ resolve (s.ea r.val)) : (s.storeRegs l).readByte a = s.readByte a := by
  induction l generalizing s with
  | nil => rfl
  | cons r l ih =>
    rw [State.storeRegs, ih]
    · simpa using fun e => absurd e (h r (by simp))
    · exact fun q hq => h q (by simp [hq])

/-- Each stored register is read back at its own address (R144). -/
theorem State.storeRegs_readByte (s : State) (l : List Nib) (hl : l.Nodup) (r : Nib) (hr : r ∈ l) :
    (s.storeRegs l).readByte (s.ea r.val) = s.reg r := by
  induction l generalizing s with
  | nil => simp at hr
  | cons q l ih =>
    obtain ⟨hq, hl'⟩ := List.nodup_cons.mp hl
    rw [State.storeRegs]
    rcases List.mem_cons.mp hr with rfl | hm
    · rw [State.storeRegs_readByte_other]
      · simp
      · exact fun p hp e => hq (s.resolve_ea_inj r p e ▸ hp)
    · exact ih (s.writeByte (s.ea q.val) (s.reg q)) hl' hm

/-- Storing registers keeps memory's canonical form. -/
theorem State.wf_storeRegs (s : State) (l : List Nib) (h : Memory.wf s.mem = true) :
    Memory.wf (s.storeRegs l).mem = true := by
  induction l generalizing s with
  | nil => exact h
  | cons r l ih => exact ih _ (Memory.wf_write _ _ _ (resolve_lt _) h)

/-- Loading registers touches the register file alone (R145). -/
theorem State.loadRegs_frame (s : State) (l : List Nib) : s.loadRegs l = { s with V := (s.loadRegs l).V } := by
  induction l generalizing s with
  | nil => rfl
  | cons r l ih => rw [State.loadRegs, ih]; rfl

/-- Each register of the list takes the byte at its own address, every other keeps its value (R145). -/
theorem State.loadRegs_reg (s : State) (l : List Nib) (q : Nib) :
    (s.loadRegs l).reg q = if q ∈ l then s.readByte (s.ea q.val) else s.reg q := by
  induction l generalizing s with
  | nil => simp [State.loadRegs]
  | cons r l ih =>
    rw [State.loadRegs, ih]
    by_cases hq : q ∈ l <;> by_cases hr : q = r <;> simp_all

/-- The two writes of a flag-writing instruction: the result stays in `Vx` even where `x` is VF (R120). -/
@[simp] theorem State.writeFlagged_reg (s : State) (x q : Nib) (c : Bool) (b : Byte) :
    (s.writeFlagged x c b).reg q = if q = x then b else if q = VF then flagByte c else s.reg q := by
  simp [State.writeFlagged]

/-- The two writes touch the register file alone. -/
theorem State.writeFlagged_frame (s : State) (x : Nib) (c : Bool) (b : Byte) :
    s.writeFlagged x c b = { s with V := (s.writeFlagged x c b).V } := rfl

/-- The skip: `pc` two further when the condition holds, nothing else (40_control_flow.md section 4). -/
theorem State.skipIf_eq (s : State) (c : Bool) : s.skipIf c = s.setPc (if c then s.pc + 2#16 else s.pc) := by
  cases c <;> rfl

/-- The key taken is down, and every lower-numbered key is up (R167). -/
theorem State.firstKey_eq_some (s : State) (k : Nib) :
    s.firstKey = some k ↔ s.key k = true ∧ ∀ j < k, s.key j = false := by
  have low : ∀ (p : Nib → Bool) (k : Nib), allNibs.find? p = some k ↔ p k = true ∧ ∀ j < k, p j = false := by
    intro p k
    have hsorted : allNibs.Pairwise (· < ·) := by decide
    rw [List.find?_eq_some_iff_append]
    constructor
    · rintro ⟨hk, as, bs, happ, has⟩
      refine ⟨hk, fun j hj => ?_⟩
      have hmem : j ∈ as ++ k :: bs := happ ▸ mem_allNibs j
      rcases List.mem_append.mp hmem with h | h
      · simpa using has j h
      · rcases List.mem_cons.mp h with rfl | hb
        · exact absurd hj (lt_irrefl _)
        · rw [happ] at hsorted
          have := (List.pairwise_append.mp hsorted).2.1
          exact absurd hj (lt_asymm ((List.pairwise_cons.mp this).1 j hb))
    · rintro ⟨hk, hlow⟩
      obtain ⟨as, bs, happ⟩ := List.append_of_mem (mem_allNibs k)
      refine ⟨hk, as, bs, happ, fun j hj => ?_⟩
      rw [happ] at hsorted
      simp [hlow j ((List.pairwise_append.mp hsorted).2.2 j hj k (by simp))]
  exact low _ k

/-- No key is taken exactly when every key is up (R167). -/
theorem State.firstKey_eq_none (s : State) : s.firstKey = none ↔ ∀ k, s.key k = false := by
  simp [State.firstKey, mem_allNibs]

theorem keyNumber_eq_some (b : Byte) (k : Nib) : keyNumber b = some k ↔ b.toNat = k.val := by
  unfold keyNumber
  split
  · rw [Option.some.injEq]
    exact ⟨fun h => congrArg Fin.val h, fun h => Fin.ext h⟩
  · have := k.isLt
    simp
    omega

theorem keyNumber_eq_none (b : Byte) : keyNumber b = none ↔ 15 < b.toNat := by
  unfold keyNumber
  split <;> simp <;> omega

theorem stackSlot_eq_some (n : Nat) (k : Nib) : stackSlot n = some k ↔ n = k.val := by
  unfold stackSlot
  split
  · rw [Option.some.injEq]
    exact ⟨fun h => congrArg Fin.val h, fun h => Fin.ext h⟩
  · have := k.isLt
    simp
    omega

theorem stackSlot_eq_none (n : Nat) : stackSlot n = none ↔ 15 < n := by
  unfold stackSlot
  split <;> simp <;> omega

end Sys2Proof.Machine
end

