-- ==== Sys2Proof/Laws/Engine.lean ====
section
/-! SUPPORT. What the ends of a cycle, the fetch and a step can do, said once: the spec lemmas of the shared operations and
the inversion of `step`. -/

namespace Sys2Proof.Machine

/-- A completed cycle is a next state with the outcome recorded. -/
@[simp] theorem State.finish_eq (s : State) (b : Bool) :
    s.finish b = .next (s.setOutcome (some (.completed b))) := rfl

/-- A waiting cycle is a next state with the outcome recorded. -/
@[simp] theorem State.wait_eq (s : State) : s.wait = .next (s.setOutcome (some .waiting)) := rfl

/-- The record a fault leaves. -/
abbrev State.record (s : State) (kind : FaultKind) (w : Word) : FaultRecord := ⟨kind, w, s.instrAddr⟩

/-- Taking a fault: HALTED with the record, the outcome recorded, nothing else (60_exceptions.md R176, R177). -/
@[simp] theorem State.raise_eq (s : State) (kind : FaultKind) (w : Word) :
    s.raise kind w =
      .next ((s.setPhase (.halted (s.record kind w))).setOutcome (some (.faulted (s.record kind w)))) := rfl

/-- The address in the record is two before the advanced `pc`, modulo 65536 (R31). -/
theorem State.instrAddr_add (s : State) : s.instrAddr + 2#16 = s.pc := by simp [State.instrAddr]

@[simp] theorem State.advance_instrAddr (s : State) : s.advance.instrAddr = s.pc := by
  simp [State.instrAddr, State.advance]

/-- The state a cycle dispatches on. -/
theorem State.advance_eq (s : State) : s.advance = { s with pc := s.pc + 2#16, cycled := true } := rfl

/-- The fetched bytes decode as the fetched word. -/
theorem State.decode_fetch (s : State) : decodeBytes s.fetchBytes = decode s.fetchWord := rfl

/-- RET in its three cases (40_control_flow.md R102). -/
theorem execRet_cases (s : State) :
    (s.sp = 0#8 ∧ execRet s = s.raise .stackUnderflow (encode .ret)) ∨
      (∃ k : Nib, s.sp ≠ 0#8 ∧ s.sp.toNat = k.val ∧
        execRet s = ((s.setPc (s.slot k)).setSp (s.sp - 1#8)).finish false) ∨
      (15 < s.sp.toNat ∧ execRet s = .fault .noStackSlot) := by
  by_cases h0 : s.sp = 0#8
  · exact .inl ⟨h0, by simp only [execRet, h0, if_true]⟩
  · cases hk : stackSlot s.sp.toNat with
    | none => exact .inr (.inr ⟨(stackSlot_eq_none _).mp hk, by simp only [execRet, h0, if_false, hk]⟩)
    | some k => exact .inr (.inl ⟨k, h0, (stackSlot_eq_some _ _).mp hk, by simp only [execRet, h0, if_false, hk]⟩)

/-- CALL in its three cases (40_control_flow.md R104). -/
theorem execCall_cases (nnn : Addr12) (s : State) :
    (s.sp = 15#8 ∧ execCall nnn s = s.raise .stackOverflow (encode (.call nnn))) ∨
      (∃ k : Nib, s.sp ≠ 15#8 ∧ s.sp.toNat + 1 = k.val ∧
        execCall nnn s = (((s.setSp (s.sp + 1#8)).setSlot k s.pc).setPc (extAddr nnn)).finish false) ∨
      (15 < s.sp.toNat ∧ execCall nnn s = .fault .noStackSlot) := by
  by_cases h0 : s.sp = 15#8
  · exact .inl ⟨h0, by simp only [execCall, h0, if_true]⟩
  · have h15 : s.sp.toNat ≠ 15 := fun h => h0 (BitVec.eq_of_toNat_eq h)
    cases hk : stackSlot (s.sp.toNat + 1) with
    | none =>
      have := (stackSlot_eq_none _).mp hk
      exact .inr (.inr ⟨by omega, by simp only [execCall, h0, if_false, hk]⟩)
    | some k => exact .inr (.inl ⟨k, h0, (stackSlot_eq_some _ _).mp hk, by simp only [execCall, h0, if_false, hk]⟩)

/-- SKP in its two cases (44_keypad_timers.md R160). -/
theorem execSkp_cases (x : Nib) (s : State) :
    (15 < (s.reg x).toNat ∧ execSkp x s = s.raise .keyIndexOutOfRange (encode (.skp x))) ∨
      ∃ k : Nib, (s.reg x).toNat = k.val ∧ execSkp x s = (s.skipIf (s.key k)).finish false := by
  cases hk : keyNumber (s.reg x) with
  | none => exact .inl ⟨(keyNumber_eq_none _).mp hk, by simp only [execSkp, hk]⟩
  | some k => exact .inr ⟨k, (keyNumber_eq_some _ _).mp hk, by simp only [execSkp, hk]⟩

/-- SKNP in its two cases (44_keypad_timers.md R161). -/
theorem execSknp_cases (x : Nib) (s : State) :
    (15 < (s.reg x).toNat ∧ execSknp x s = s.raise .keyIndexOutOfRange (encode (.sknp x))) ∨
      ∃ k : Nib, (s.reg x).toNat = k.val ∧ execSknp x s = (s.skipIf (!s.key k)).finish false := by
  cases hk : keyNumber (s.reg x) with
  | none => exact .inl ⟨(keyNumber_eq_none _).mp hk, by simp only [execSknp, hk]⟩
  | some k => exact .inr ⟨k, (keyNumber_eq_some _ _).mp hk, by simp only [execSknp, hk]⟩

/-- LD Vx, K in its two cases (44_keypad_timers.md R162, R167). -/
theorem execLdVxK_cases (x : Nib) (s : State) :
    (∃ k : Nib, s.firstKey = some k ∧ execLdVxK x s = (s.setReg x (nibByte k)).finish false) ∨
      (s.firstKey = none ∧ execLdVxK x s = (s.setPhase (.waitKey x)).wait) := by
  cases hk : s.firstKey with
  | some k => exact .inl ⟨k, rfl, by simp only [execLdVxK, hk]⟩
  | none => exact .inr ⟨rfl, by simp only [execLdVxK, hk]⟩

/-- The `Poll` step in its two cases (44_keypad_timers.md R163). -/
theorem poll_cases (x : Nib) (s : State) :
    (∃ k : Nib, s.firstKey = some k ∧ poll x s = ((s.setReg x (nibByte k)).setPhase .ready).finish false) ∨
      (s.firstKey = none ∧ poll x s = s.wait) := by
  cases hk : s.firstKey with
  | some k => exact .inl ⟨k, rfl, by simp only [poll, hk]⟩
  | none => exact .inr ⟨rfl, by simp only [poll, hk]⟩

theorem nibByte_toNat (k : Nib) : (nibByte k).toNat = k.val := by
  have := k.isLt
  simp only [nibByte, BitVec.toNat_ofNat]
  omega

/-- `sp` one down, for an `sp` that is not 0. -/
theorem toNat_sub_one (b : Byte) (h : b ≠ 0#8) : (b - 1#8).toNat = b.toNat - 1 := by
  have h0 : b.toNat ≠ 0 := fun e => h (BitVec.eq_of_toNat_eq e)
  have := b.isLt
  simp only [BitVec.toNat_sub, BitVec.toNat_ofNat]
  omega

/-- `sp` one up, below 255. -/
theorem toNat_add_one (b : Byte) (h : b.toNat < 255) : (b + 1#8).toNat = b.toNat + 1 := by
  simp only [BitVec.toNat_add, BitVec.toNat_ofNat]
  omega

theorem extAddr_toNat (nnn : Addr12) : (extAddr nnn).toNat = nnn.toNat := by
  have := nnn.isLt
  simp only [extAddr, BitVec.toNat_setWidth]
  omega

theorem extByte_toNat (b : Byte) : (extByte b).toNat = b.toNat := by
  have := b.isLt
  simp only [extByte, BitVec.toNat_setWidth]
  omega

/-- One down, never below zero (60_exceptions.md R183). -/
theorem countDown_toNat (b : Byte) : (countDown b).toNat = b.toNat - 1 := by
  by_cases h : b = 0#8
  · simp [countDown, h]
  · simpa [countDown, h] using toNat_sub_one b h

/-- The step when the ENGINE is next. -/
theorem step_engine {s : State} {rest : List AgentStep} (h : EngineNext s rest) :
    step s = engineStep (s.setSchedule rest) := by
  rcases h with ⟨h, rfl⟩ | h
  · have : s.setSchedule [] = s := by rw [← h]; rfl
    simp only [step, nextStep, h, this]
  · simp only [step, nextStep, h]
    rfl

/-- `Load` in its cases (70_reset_and_hazards.md R201): taken, with the bytes written and the load marked, or refused. -/
theorem State.hostLoad_cases (s : State) (bytes : List Byte) :
    (bytes.length ≤ Config.maxProgram ∧ s.phase = .ready ∧ s.cycled = false ∧ s.loaded = false ∧
        s.hostLoad bytes = .next (((s.writeBytes Config.progBase bytes).setLoaded true).setOutcome none)) ∨
      (Config.maxProgram < bytes.length ∧ s.hostLoad bytes = .refused .loadTooLong) ∨
      (bytes.length ≤ Config.maxProgram ∧ (s.phase ≠ .ready ∨ s.cycled = true) ∧
        s.hostLoad bytes = .refused .loadTooLate) ∨
      (bytes.length ≤ Config.maxProgram ∧ s.phase = .ready ∧ s.cycled = false ∧ s.loaded = true ∧
        s.hostLoad bytes = .refused .loadTwice) := by
  by_cases hl : Config.maxProgram < bytes.length
  · exact .inr (.inl ⟨hl, if_pos hl⟩)
  · have hle := Nat.le_of_not_lt hl
    by_cases hr : s.phase = .ready ∧ s.cycled = false
    · cases hd : s.loaded with
      | false => exact .inl ⟨hle, hr.1, hr.2, rfl, by simp only [State.hostLoad, gt_iff_lt, hl, hr, hd, and_self, if_true, if_false]⟩
      | true =>
        exact .inr (.inr (.inr ⟨hle, hr.1, hr.2, rfl, by
          simp only [State.hostLoad, gt_iff_lt, hl, hr, hd, and_self, if_true, if_false, Bool.true_eq_false]⟩))
    · refine .inr (.inr (.inl ⟨hle, ?_, by simp only [State.hostLoad, gt_iff_lt, hl, hr, if_false]⟩))
      by_cases hp : s.phase = .ready
      · exact .inr (by simpa [hp] using hr)
      · exact .inl hp

/-- What a step can be: the ENGINE's in one of its phases, or that of the agent at the head of the schedule. -/
theorem step_cases (s : State) :
    (∃ rest, EngineNext s rest ∧
      ((s.phase = .ready ∧ ∃ i, decode s.fetchWord = .instr i ∧ step s = exec i (s.setSchedule rest).advance) ∨
       (s.phase = .ready ∧ (∃ why, decode s.fetchWord = .illegal why) ∧
          step s = (s.setSchedule rest).advance.raise .unsupportedInstruction s.fetchWord) ∨
       (∃ x, s.phase = .waitKey x ∧ step s = poll x (s.setSchedule rest)) ∨
       (∃ f, s.phase = .halted f ∧ step s = .fault (.halted f)))) ∨
    (∃ rest, s.schedule = .tickDelay :: rest ∧ step s = .next (s.setSchedule rest).tickDelay) ∨
    (∃ rest, s.schedule = .tickSound :: rest ∧ step s = .next (s.setSchedule rest).tickSound) ∨
    (∃ rest k, s.schedule = .setKeys k :: rest ∧ step s = .next ((s.setSchedule rest).inputKeys k)) ∨
    (∃ rest, s.schedule = .reset :: rest ∧ step s = .next (s.setSchedule rest).hostReset) ∨
    (∃ rest bytes, s.schedule = .load bytes :: rest ∧ step s = (s.setSchedule rest).hostLoad bytes) := by
  have engine : ∀ rest, EngineNext s rest →
      ((s.phase = .ready ∧ ∃ i, decode s.fetchWord = .instr i ∧ step s = exec i (s.setSchedule rest).advance) ∨
       (s.phase = .ready ∧ (∃ why, decode s.fetchWord = .illegal why) ∧
          step s = (s.setSchedule rest).advance.raise .unsupportedInstruction s.fetchWord) ∨
       (∃ x, s.phase = .waitKey x ∧ step s = poll x (s.setSchedule rest)) ∨
       (∃ f, s.phase = .halted f ∧ step s = .fault (.halted f))) := by
    intro rest h
    have hf : (s.setSchedule rest).fetchWord = s.fetchWord := rfl
    rw [step_engine h]
    cases hp : s.phase with
    | ready =>
      cases hd : decode s.fetchWord with
      | instr i =>
        exact .inl ⟨rfl, i, rfl, by simp only [engineStep, State.setSchedule_phase, hp, cycle, State.decode_fetch, hf, hd]⟩
      | illegal why =>
        exact .inr (.inl ⟨rfl, ⟨why, rfl⟩,
          by simp only [engineStep, State.setSchedule_phase, hp, cycle, State.decode_fetch, hf, hd]⟩)
    | waitKey x => exact .inr (.inr (.inl ⟨x, rfl, by simp only [engineStep, State.setSchedule_phase, hp]⟩))
    | halted f => exact .inr (.inr (.inr ⟨f, rfl, by simp only [engineStep, State.setSchedule_phase, hp]⟩))
  cases hs : s.schedule with
  | nil => exact .inl ⟨[], .inl ⟨hs, rfl⟩, engine [] (.inl ⟨hs, rfl⟩)⟩
  | cons a rest =>
    cases a with
    | engine => exact .inl ⟨rest, .inr hs, engine rest (.inr hs)⟩
    | tickDelay => exact .inr (.inl ⟨rest, rfl, by simp only [step, nextStep, hs, agentStep]⟩)
    | tickSound => exact .inr (.inr (.inl ⟨rest, rfl, by simp only [step, nextStep, hs, agentStep]⟩))
    | setKeys k => exact .inr (.inr (.inr (.inl ⟨rest, k, rfl, by simp only [step, nextStep, hs, agentStep]⟩)))
    | reset => exact .inr (.inr (.inr (.inr (.inl ⟨rest, rfl, by simp only [step, nextStep, hs, agentStep]⟩))))
    | load b => exact .inr (.inr (.inr (.inr (.inr ⟨rest, b, rfl, by simp only [step, nextStep, hs, agentStep]⟩))))

end Sys2Proof.Machine
end

