-- ==== Sys2Proof/Laws/PerInstr.lean ====
section
/-! SUPPORT. One statement about every instruction as syntax, proved per constructor: the encoder's word carries the fixed
bits of the instruction's row of the opcode map (30_encoding.md R76). -/

namespace Sys2Proof.Laws.RowMatch

/-- The encoded word under its row's mask is its row's match (R76). -/
def Statement (i : Instr) : Prop := encode i &&& (maskMatch i).1 = (maskMatch i).2

theorem under_F000_encA (a : Nib) (nnn : Addr12) : encA a nnn &&& 0xF000#16 = encA a 0 := by
  rw [and_F000, (fields_encA a nnn).1]

theorem under_F000_encXK (a x : Nib) (kk : Byte) : encXK a x kk &&& 0xF000#16 = encA a 0 := by
  rw [and_F000, (fields_encXK a x kk).1]

theorem under_F000_encXY (a x y d : Nib) : encXY a x y d &&& 0xF000#16 = encA a 0 := by
  rw [and_F000, (fields_encXY a x y d).1]

theorem under_F00F_encXY (a x y d : Nib) : encXY a x y d &&& 0xF00F#16 = encXY a 0 0 d := by
  rw [and_F00F, (fields_encXY a x y d).1, (fields_encXY a x y d).2.2.2]

theorem under_F0FF_encXK (a x : Nib) (kk : Byte) : encXK a x kk &&& 0xF0FF#16 = encXK a 0 kk := by
  rw [and_F0FF, (fields_encXK a x kk).1, (fields_encXK a x kk).2.2]

theorem cls : Statement (.cls) := rfl

theorem ret : Statement (.ret) := rfl

theorem sys (nnn : Addr12) : Statement (.sys nnn) := (under_F000_encA ..).trans rfl

theorem jp (nnn : Addr12) : Statement (.jp nnn) := (under_F000_encA ..).trans rfl

theorem call (nnn : Addr12) : Statement (.call nnn) := (under_F000_encA ..).trans rfl

theorem seImm (x : Nib) (kk : Byte) : Statement (.seImm x kk) := (under_F000_encXK ..).trans rfl

theorem sneImm (x : Nib) (kk : Byte) : Statement (.sneImm x kk) := (under_F000_encXK ..).trans rfl

theorem seReg (x : Nib) (y : Nib) : Statement (.seReg x y) := (under_F00F_encXY ..).trans rfl

theorem ldImm (x : Nib) (kk : Byte) : Statement (.ldImm x kk) := (under_F000_encXK ..).trans rfl

theorem addImm (x : Nib) (kk : Byte) : Statement (.addImm x kk) := (under_F000_encXK ..).trans rfl

theorem ldReg (x : Nib) (y : Nib) : Statement (.ldReg x y) := (under_F00F_encXY ..).trans rfl

theorem orReg (x : Nib) (y : Nib) : Statement (.orReg x y) := (under_F00F_encXY ..).trans rfl

theorem andReg (x : Nib) (y : Nib) : Statement (.andReg x y) := (under_F00F_encXY ..).trans rfl

theorem xorReg (x : Nib) (y : Nib) : Statement (.xorReg x y) := (under_F00F_encXY ..).trans rfl

theorem addReg (x : Nib) (y : Nib) : Statement (.addReg x y) := (under_F00F_encXY ..).trans rfl

theorem sub (x : Nib) (y : Nib) : Statement (.sub x y) := (under_F00F_encXY ..).trans rfl

theorem shr (x : Nib) : Statement (.shr x) := (under_F00F_encXY ..).trans rfl

theorem subn (x : Nib) (y : Nib) : Statement (.subn x y) := (under_F00F_encXY ..).trans rfl

theorem shl (x : Nib) : Statement (.shl x) := (under_F00F_encXY ..).trans rfl

theorem sneReg (x : Nib) (y : Nib) : Statement (.sneReg x y) := (under_F00F_encXY ..).trans rfl

theorem ldI (nnn : Addr12) : Statement (.ldI nnn) := (under_F000_encA ..).trans rfl

theorem jpV0 (nnn : Addr12) : Statement (.jpV0 nnn) := (under_F000_encA ..).trans rfl

theorem rnd (x : Nib) (kk : Byte) : Statement (.rnd x kk) := (under_F000_encXK ..).trans rfl

theorem drw (x : Nib) (y : Nib) (n : Nib) : Statement (.drw x y n) := (under_F000_encXY ..).trans rfl

theorem skp (x : Nib) : Statement (.skp x) := (under_F0FF_encXK ..).trans rfl

theorem sknp (x : Nib) : Statement (.sknp x) := (under_F0FF_encXK ..).trans rfl

theorem ldVxDT (x : Nib) : Statement (.ldVxDT x) := (under_F0FF_encXK ..).trans rfl

theorem ldVxK (x : Nib) : Statement (.ldVxK x) := (under_F0FF_encXK ..).trans rfl

theorem ldDTVx (x : Nib) : Statement (.ldDTVx x) := (under_F0FF_encXK ..).trans rfl

theorem ldSTVx (x : Nib) : Statement (.ldSTVx x) := (under_F0FF_encXK ..).trans rfl

theorem addI (x : Nib) : Statement (.addI x) := (under_F0FF_encXK ..).trans rfl

theorem ldF (x : Nib) : Statement (.ldF x) := (under_F0FF_encXK ..).trans rfl

theorem ldB (x : Nib) : Statement (.ldB x) := (under_F0FF_encXK ..).trans rfl

theorem ldMemVx (x : Nib) : Statement (.ldMemVx x) := (under_F0FF_encXK ..).trans rfl

theorem ldVxMem (x : Nib) : Statement (.ldVxMem x) := (under_F0FF_encXK ..).trans rfl

end Sys2Proof.Laws.RowMatch
end

