-- ==== Sys2Proof/Tests/Slice0.lean ====
section
/-! SUPPORT. The model's own tests: what WellFormed refuses, a word of every constructor written out from the spec's
encodings, one step of each instruction with the values of spec/95_test_vectors.md, and a witness for the hypotheses of
every statement that has some. -/

namespace Sys2Proof.Tests

open Sys2Proof Sys2Proof.Machine

/-- One ENGINE cycle that fetches a word at the state's `pc`. -/
def run (w : Nat) (s : State) : Option State :=
  match step (s.withFetchWord 16 w) with
  | .next t => some t
  | .fault _ => none
  | .refused _ => none

/-- One step of the agent a schedule names. -/
def agent (a : AgentStep) (s : State) : Option State :=
  match step (s.setSchedule [a]) with
  | .next t => some t
  | .fault _ => none
  | .refused _ => none

/-- The reset state with registers set: a list of register numbers and values. -/
def regs (l : List (Nib × Byte)) : State := l.foldl (fun s p => s.setReg p.1 p.2) State.reset

/-- A register of a run's end. -/
def regOf (r : Nib) (o : Option State) : Option Byte := o.map fun t => t.reg r

/-- The `pc` of a run's end. -/
def pcOf (o : Option State) : Option Word := o.map fun t => t.pc

/-- Bytes of memory at a run's end, from an address up. -/
def bytesOf (a n : Nat) (o : Option State) : Option (List Byte) :=
  o.map fun t => (List.range n).map fun i => t.readByte (a + i)

/-- The lit cells of a run's end, as row and column. -/
def litOf (o : Option State) : Option (List (Nat × Nat)) :=
  o.map fun t => t.FB.map fun c => (c / t.res.width, c % t.res.width)

/-! ### WellFormed -/

/-- 30_encoding.md R80: an assembler refuses `SYS 0x0E0` and `SYS 0x0EE`; their neighbours stand. -/
theorem test_wellFormed_refuses :
    wellFormed (.sys 0x0E0#12) = false ∧ wellFormed (.sys 0x0EE#12) = false ∧
    wellFormed (.sys 0x0E1#12) = true ∧ wellFormed (.sys 0x0EF#12) = true ∧ wellFormed (.sys 0x000#12) = true := by
  decide

/-! ### Decoding, from the encodings of 30_encoding.md R76 and the words of 95_test_vectors.md V1, V2 -/

theorem test_decode_family0 :
    decode 0x00E0#16 = .instr .cls ∧ decode 0x00EE#16 = .instr .ret ∧ decode 0x0000#16 = .instr (.sys 0x000#12) ∧
    decode 0x00E1#16 = .instr (.sys 0x0E1#12) ∧ decode 0x0FFF#16 = .instr (.sys 0xFFF#12) := by decide

theorem test_decode_addresses :
    decode 0x12F0#16 = .instr (.jp 0x2F0#12) ∧ decode 0x2ABC#16 = .instr (.call 0xABC#12) ∧
    decode 0xA300#16 = .instr (.ldI 0x300#12) ∧ decode 0xBFFF#16 = .instr (.jpV0 0xFFF#12) := by decide

theorem test_decode_immediates :
    decode 0x332A#16 = .instr (.seImm 3 0x2A#8) ∧ decode 0x442B#16 = .instr (.sneImm 4 0x2B#8) ∧
    decode 0x6A7F#16 = .instr (.ldImm 0xA 0x7F#8) ∧ decode 0x7220#16 = .instr (.addImm 2 0x20#8) ∧
    decode 0xC10F#16 = .instr (.rnd 1 0x0F#8) := by decide

theorem test_decode_registers :
    decode 0x5120#16 = .instr (.seReg 1 2) ∧ decode 0x9AB0#16 = .instr (.sneReg 0xA 0xB) ∧
    decode 0xDF05#16 = .instr (.drw 0xF 0 5) := by decide

theorem test_decode_family8 :
    decode 0x8AB0#16 = .instr (.ldReg 0xA 0xB) ∧ decode 0x8AB1#16 = .instr (.orReg 0xA 0xB) ∧
    decode 0x8AB2#16 = .instr (.andReg 0xA 0xB) ∧ decode 0x8AB3#16 = .instr (.xorReg 0xA 0xB) ∧
    decode 0x8AB4#16 = .instr (.addReg 0xA 0xB) ∧ decode 0x8AB5#16 = .instr (.sub 0xA 0xB) ∧
    decode 0x8AB6#16 = .instr (.shr 0xA) ∧ decode 0x8AB7#16 = .instr (.subn 0xA 0xB) ∧
    decode 0x8ABE#16 = .instr (.shl 0xA) := by decide

theorem test_decode_keys : decode 0xEF9E#16 = .instr (.skp 0xF) ∧ decode 0xE7A1#16 = .instr (.sknp 7) := by decide

theorem test_decode_familyF :
    decode 0xF107#16 = .instr (.ldVxDT 1) ∧ decode 0xF20A#16 = .instr (.ldVxK 2) ∧
    decode 0xF315#16 = .instr (.ldDTVx 3) ∧ decode 0xF418#16 = .instr (.ldSTVx 4) ∧
    decode 0xF51E#16 = .instr (.addI 5) ∧ decode 0xF629#16 = .instr (.ldF 6) ∧ decode 0xF733#16 = .instr (.ldB 7) ∧
    decode 0xF955#16 = .instr (.ldMemVx 9) ∧ decode 0xFA65#16 = .instr (.ldVxMem 0xA) := by decide

/-- V2: the illegal words, each by the row of R77 that names it; and fewer than two bytes are no instruction. -/
theorem test_decode_illegal :
    decode 0x5121#16 = .illegal .family5 ∧ decode 0x512F#16 = .illegal .family5 ∧
    decode 0x8AB8#16 = .illegal .family8 ∧ decode 0x8ABD#16 = .illegal .family8 ∧
    decode 0x8ABF#16 = .illegal .family8 ∧ decode 0x9AB1#16 = .illegal .family9 ∧
    decode 0xE09F#16 = .illegal .familyE ∧ decode 0xE0A0#16 = .illegal .familyE ∧
    decode 0xF000#16 = .illegal .familyF ∧ decode 0xF0FF#16 = .illegal .familyF ∧
    decodeBytes [0x60#8] = .illegal .truncated ∧ decodeBytes [] = .illegal .truncated := by decide

/-- R80: the encoder's words, SHR and SHL with `y = 0`. -/
theorem test_encode_words :
    encode (.drw 1 2 0xF) = 0xD12F#16 ∧ encode (.shr 0xA) = 0x8A06#16 ∧ encode (.shl 0xA) = 0x8A0E#16 ∧
    encode (.ldVxMem 0xC) = 0xFC65#16 ∧ encodeBytes (.ldI 0x300#12) = [0xA3#8, 0x00#8] := by decide

/-- The table's numbering: the word itself. -/
theorem test_decodeTableWord :
    decodeTableWord 16 0xD12F = some (.drw 1 2 0xF) ∧ decodeTableWord 16 0x5121 = none := by decide

/-! ### Fetch (V1) -/

theorem test_fetch_odd_and_wrapped :
    (((State.reset.writeBytes 0x201 [0x3F, 0x2A]).setPc 0x0201#16).fetchWord = 0x3F2A#16) ∧
    (((State.reset.writeByte 0xFFF 0x12).setPc 0x0FFF#16).fetchWord = 0x12F0#16) ∧
    (((State.reset.writeBytes 0x200 [0x60, 0x0A]).setPc 0x1200#16).fetchWord = 0x600A#16) := by decide

/-- V1: the advance wraps at 65536; V10: the empty program's last cycle faults at 0x1000. -/
theorem test_fetch_edges :
    pcOf (run 0x0000 (State.reset.setPc 0xFFFE#16)) = some 0x0000#16 ∧
    pcOf (run 0x12F0 (State.reset.setPc 0x0FFF#16)) = some 0x02F0#16 ∧
    (State.reset.setPc 0x1000#16).fetchWord = 0xF090#16 := by decide

/-! ### Control flow (V6) -/

theorem test_sys : pcOf (run 0x0123 State.reset) = some 0x0202#16 := by decide

theorem test_jp : pcOf (run 0x1228 State.reset) = some 0x0228#16 ∧ pcOf (run 0x1201 State.reset) = some 0x0201#16 := by
  decide

theorem test_call_pushes :
    (run 0x2300 ((State.reset.setPc 0x0FFE#16).setSp 3)).map (fun t => (t.sp, t.slot 4, t.pc)) =
      some (4#8, 0x1000#16, 0x0300#16) := by decide

theorem test_call_overflows :
    (run 0x2300 (State.reset.setSp 15)).map (fun t => (t.sp, t.pc, t.phase)) =
      some (15#8, 0x0202#16, .halted ⟨.stackOverflow, 0x2300#16, 0x0200#16⟩) := by decide

theorem test_ret_pops :
    (run 0x00EE (((State.reset.setPc 0x020C#16).setSp 1).setSlot 1 0x0206#16)).map (fun t => (t.pc, t.sp, t.slot 1)) =
      some (0x0206#16, 0#8, 0x0206#16) := by decide

theorem test_ret_underflows :
    (run 0x00EE State.reset).map (fun t => (t.sp, t.pc, t.phase)) =
      some (0#8, 0x0202#16, .halted ⟨.stackUnderflow, 0x00EE#16, 0x0200#16⟩) := by decide

theorem test_seImm :
    pcOf (run 0x332A (regs [(3, 0x2A)])) = some 0x0204#16 ∧ pcOf (run 0x332A (regs [(3, 0x2B)])) = some 0x0202#16 ∧
    pcOf (run 0x3000 (State.reset.setPc 0xFFFC#16)) = some 0x0000#16 := by decide

theorem test_sneImm :
    pcOf (run 0x432A (regs [(3, 0x2A)])) = some 0x0202#16 ∧ pcOf (run 0x432A State.reset) = some 0x0204#16 := by decide

theorem test_seReg :
    pcOf (run 0x5120 (regs [(1, 7), (2, 7)])) = some 0x0204#16 ∧
    pcOf (run 0x5120 (regs [(1, 7), (2, 8)])) = some 0x0202#16 := by decide

theorem test_sneReg :
    pcOf (run 0x9120 (regs [(1, 7), (2, 8)])) = some 0x0204#16 ∧
    pcOf (run 0x9120 (regs [(1, 7), (2, 7)])) = some 0x0202#16 := by decide

theorem test_jpV0 :
    pcOf (run 0xB300 (regs [(0, 4)])) = some 0x0304#16 ∧ pcOf (run 0xBFFF (regs [(0, 0xFF)])) = some 0x10FE#16 := by
  decide

/-- P6 (c): the illegal word is recorded with the address it was fetched from. -/
theorem test_illegal_word :
    (run 0x5121 (State.reset.setPc 0x0204#16)).map (fun t => (t.pc, t.phase, t.outcome)) =
      some (0x0206#16, .halted ⟨.unsupportedInstruction, 0x5121#16, 0x0204#16⟩,
        some (.faulted ⟨.unsupportedInstruction, 0x5121#16, 0x0204#16⟩)) := by decide

/-! ### Arithmetic and logic (V3, V4, V5) -/

theorem test_ldImm : regOf 0xA (run 0x6A7F State.reset) = some 0x7F#8 ∧ regOf VF (run 0x6F01 State.reset) = some 1#8 := by
  decide

theorem test_addImm :
    (run 0x7220 (regs [(2, 0xF0), (VF, 1)])).map (fun t => (t.reg 2, t.reg VF)) = some (0x10#8, 1#8) ∧
    (run 0x7201 (regs [(2, 0xFF)])).map (fun t => (t.reg 2, t.reg VF)) = some (0x00#8, 0#8) := by decide

theorem test_ldReg :
    (run 0x8010 (regs [(1, 0x33)])).map (fun t => (t.reg 0, t.reg 1)) = some (0x33#8, 0x33#8) := by decide

theorem test_orReg :
    (run 0x8011 (regs [(0, 0xF0), (1, 0x0F), (VF, 1)])).map (fun t => (t.reg 0, t.reg VF)) = some (0xFF#8, 1#8) := by decide

theorem test_andReg : regOf 0 (run 0x8012 (regs [(0, 0xF0), (1, 0x3C)])) = some 0x30#8 := by decide

theorem test_xorReg :
    regOf 0 (run 0x8013 (regs [(0, 0xF0), (1, 0x3C)])) = some 0xCC#8 ∧ regOf 0 (run 0x8003 (regs [(0, 0xA5)])) = some 0#8 := by
  decide

theorem test_addReg :
    (run 0x8124 (regs [(1, 0xC8), (2, 0x64)])).map (fun t => (t.reg 1, t.reg VF)) = some (0x2C#8, 1#8) ∧
    (run 0x8124 (regs [(1, 0x80), (2, 0x7F)])).map (fun t => (t.reg 1, t.reg VF)) = some (0xFF#8, 0#8) := by decide

theorem test_addReg_vf :
    regOf VF (run 0x8FF4 (regs [(VF, 0x90)])) = some 0x20#8 ∧ regOf VF (run 0x8F14 (regs [(VF, 1), (1, 2)])) = some 3#8 ∧
    (run 0x81F4 (regs [(1, 0xFF), (VF, 2)])).map (fun t => (t.reg 1, t.reg VF)) = some (1#8, 1#8) := by decide

theorem test_sub :
    (run 0x8125 (regs [(1, 0x05), (2, 0x05)])).map (fun t => (t.reg 1, t.reg VF)) = some (0#8, 0#8) ∧
    (run 0x8125 (regs [(1, 0x0A), (2, 0x03)])).map (fun t => (t.reg 1, t.reg VF)) = some (7#8, 1#8) := by decide

theorem test_sub_vf :
    regOf VF (run 0x8F15 (regs [(VF, 5), (1, 7)])) = some 0xFE#8 ∧
    (run 0x81F5 (regs [(1, 5), (VF, 9)])).map (fun t => (t.reg 1, t.reg VF)) = some (0xFC#8, 0#8) := by decide

theorem test_shr :
    (run 0x8126 (regs [(1, 0x05), (2, 0xFF)])).map (fun t => (t.reg 1, t.reg 2, t.reg VF)) = some (2#8, 0xFF#8, 1#8) ∧
    regOf VF (run 0x8F06 (regs [(VF, 5)])) = some 2#8 := by decide

theorem test_subn :
    (run 0x8127 (regs [(1, 0x03), (2, 0x0A)])).map (fun t => (t.reg 1, t.reg VF)) = some (7#8, 1#8) ∧
    (run 0x8127 (regs [(1, 0xFF), (2, 0x00)])).map (fun t => (t.reg 1, t.reg VF)) = some (1#8, 0#8) := by decide

theorem test_shl :
    (run 0x812E (regs [(1, 0x81), (2, 0xFF)])).map (fun t => (t.reg 1, t.reg 2, t.reg VF)) = some (2#8, 0xFF#8, 1#8) ∧
    regOf VF (run 0x8F0E (regs [(VF, 0xC1)])) = some 0x82#8 := by decide

/-- V4: the draw is the free byte, masked; one byte is drawn. -/
theorem test_rnd :
    (run 0xC00F State.reset).map (fun t => (t.reg 0, t.draws)) = some (Config.randomByte 0 &&& 0x0F#8, 1) := rfl

/-! ### Index register and memory (V7) -/

theorem test_ldI : (run 0xAFFF (State.reset.setI 0xFFFF#16)).map (fun t => t.I) = some 0x0FFF#16 := by decide

theorem test_addI :
    (run 0xF21E ((regs [(2, 1)]).setI 0x0FFF#16)).map (fun t => (t.I, t.reg VF)) = some (0x1000#16, 0#8) ∧
    (run 0xF21E ((regs [(2, 1)]).setI 0xFFFF#16)).map (fun t => t.I) = some 0x0000#16 := by decide

theorem test_ldF :
    (run 0xF029 (regs [(0, 0x0F)])).map (fun t => t.I) = some 0x004B#16 ∧
    (run 0xF029 (regs [(0, 0xFF)])).map (fun t => t.I) = some 0x04FB#16 := by decide

theorem test_ldB :
    bytesOf 0x300 3 (run 0xF033 ((regs [(0, 0xFE)]).setI 0x0300#16)) = some [2#8, 5#8, 4#8] := by decide

theorem test_ldB_wraps :
    bytesOf 0xFFE 3 (run 0xF033 ((regs [(0, 0xC7)]).setI 0x0FFE#16)) = some [1#8, 9#8, 9#8] := by decide

theorem test_ldMemVx :
    (run 0xF255 ((regs [(0, 0x11), (1, 0x22), (2, 0x33), (3, 0x44)]).setI 0x0400#16)).map
      (fun t => ([0x400, 0x401, 0x402, 0x403].map t.readByte, t.I)) = some ([0x11#8, 0x22#8, 0x33#8, 0#8], 0x0400#16) := by
  decide

theorem test_ldVxMem :
    (run 0xF265 (((State.reset.writeBytes 0x300 [2, 5, 4, 9]).setReg 3 7).setI 0x0300#16)).map
      (fun t => ([0, 1, 2, 3].map t.reg, t.I)) = some ([2#8, 5#8, 4#8, 7#8], 0x0300#16) := by decide

/-- V7: the glyph region as the sixteen registers read it; and an index above 4095. -/
theorem test_ldVxMem_glyphs :
    (run 0xF465 State.reset).map (fun t => [0, 1, 2, 3, 4].map t.reg) = some [0xF0#8, 0x90#8, 0x90#8, 0x90#8, 0xF0#8] ∧
    regOf 0 (run 0xF065 (State.reset.setI 0x1000#16)) = some 0xF0#8 := by decide

/-! ### Display (V8) -/

theorem test_cls :
    (run 0x00E0 (State.reset.setFB [0, 5, 2047])).map (fun t => (t.FB, t.outcome)) = some ([], some (.completed false)) := by
  decide

/-- V8: a row at column 63 goes on at column 0. -/
theorem test_drw_wraps :
    litOf (run 0xD011 (((regs [(0, 0x3F)]).writeByte 0x300 0xFF).setI 0x0300#16)) =
      some [(0, 0), (0, 1), (0, 2), (0, 3), (0, 4), (0, 5), (0, 6), (0, 63)] := by decide

/-- V8: partial overlap sets one pixel and erases one; `x = F` reads the column before VF is written (V5). -/
theorem test_drw_collides :
    (run 0xD011 (((State.reset.setFB [1]).writeByte 0x300 0xC0).setI 0x0300#16)).map
      (fun t => (t.FB, t.reg VF, t.outcome)) = some ([0], 1#8, some (.completed true)) ∧
    litOf (run 0xDF01 (((regs [(VF, 3)]).writeByte 0x300 0x80).setI 0x0300#16)) = some [(0, 3)] := by decide

/-! ### Keys and timers (V9) -/

theorem test_skp :
    pcOf (run 0xE19E ((regs [(1, 5)]).setKeys 0x0020#16)) = some 0x0204#16 ∧
    pcOf (run 0xE19E ((regs [(1, 5)]).setKeys 0x0040#16)) = some 0x0202#16 := by decide

theorem test_skp_above_fifteen :
    (run 0xE19E (regs [(1, 0x10)])).map (fun t => (t.pc, t.phase)) =
      some (0x0202#16, .halted ⟨.keyIndexOutOfRange, 0xE19E#16, 0x0200#16⟩) := by decide

theorem test_sknp :
    pcOf (run 0xE1A1 (regs [(1, 5)])) = some 0x0204#16 ∧
    pcOf (run 0xE1A1 ((regs [(1, 5)]).setKeys 0x0020#16)) = some 0x0202#16 := by decide

theorem test_sknp_above_fifteen :
    (run 0xE1A1 (regs [(1, 0xFF)])).map (fun t => (t.pc, t.phase)) =
      some (0x0202#16, .halted ⟨.keyIndexOutOfRange, 0xE1A1#16, 0x0200#16⟩) := by decide

theorem test_ldVxK_key_down :
    (run 0xF30A (State.reset.setKeys 0x0280#16)).map (fun t => (t.reg 3, t.phase, t.pc, t.outcome)) =
      some (7#8, .ready, 0x0202#16, some (.completed false)) := by decide

theorem test_ldVxK_waits :
    (run 0xF30A (regs [(3, 0x55)])).map (fun t => (t.reg 3, t.phase, t.pc, t.outcome)) =
      some (0x55#8, .waitKey 3, 0x0202#16, some .waiting) := by decide

theorem test_poll :
    (agent .engine ((State.reset.setPhase (.waitKey 3)).setKeys 0x8000#16)).map (fun t => (t.reg 3, t.phase, t.pc)) =
      some (15#8, .ready, 0x0200#16) ∧
    (agent .engine (State.reset.setPhase (.waitKey 3))).map (fun t => (t.reg 3, t.phase)) = some (0#8, .waitKey 3) := by decide

theorem test_ldVxDT :
    (run 0xF407 (State.reset.setDT 0x2A)).map (fun t => (t.reg 4, t.DT)) = some (0x2A#8, 0x2A#8) := by decide

theorem test_ldDTVx : (run 0xF415 (regs [(4, 0x3C)])).map (fun t => (t.DT, t.ST)) = some (0x3C#8, 0#8) := by decide

theorem test_ldSTVx : (run 0xF418 (regs [(4, 5)])).map (fun t => (t.DT, t.ST)) = some (0#8, 5#8) := by decide

theorem test_ticks :
    (agent .tickDelay (State.reset.setDT 1)).map (fun t => t.DT) = some 0#8 ∧
    (agent .tickDelay State.reset).map (fun t => t.DT) = some 0#8 ∧
    (agent .tickSound ((State.reset.setST 5).setDT 7)).map (fun t => (t.ST, t.DT)) = some (4#8, 7#8) ∧
    (agent (.setKeys 0x0280#16) State.reset).map (fun t => allNibs.filter fun k => t.key k) = some [7, 9] := by decide

/-! ### Reset, load, halt (V10, R175) -/

theorem test_host_steps :
    agent .reset ((regs [(1, 9)]).setPhase (.halted ⟨.stackOverflow, 0, 0⟩)) = some State.reset ∧
    bytesOf 0x1FF 4 (agent (.load [0x60, 0x0A]) State.reset) = some [0#8, 0x60#8, 0x0A#8, 0#8] ∧
    agent (.load [0x60]) (State.reset.setCycled true) = none ∧
    ((agent (.load [0x60]) State.reset).map fun t => (t.loaded, agent (.load [0x61]) t)) = some (true, none) ∧
    (agent .reset (State.reset.setLoaded true)).map (fun t => t.loaded) = some false ∧
    agent .engine (State.reset.setPhase (.halted ⟨.stackOverflow, 0, 0⟩)) = none := by decide

theorem test_glyphLookup : glyphLookup 0 = some [0xF0, 0x90, 0x90, 0x90, 0xF0] ∧ glyphLookup 16 = none := by decide

/-! ### Witnesses: for each statement with hypotheses, a state and operands that meet all of them -/

/-- The state an Operation runs on when the word at 0x200 has been fetched. -/
def fetched : State := State.reset.setPc 0x0202#16

theorem test_witness_DecodeOfEncodeIsTheInstruction :
    wellFormed (.sys 0x0E1#12) = true ∧ wellFormed (.drw 15 15 15) = true := by decide

theorem test_witness_EncodeOfDecodeIsTheWord :
    decode 0x8AF6#16 = .instr (.shr 0xA) ∧ isShift (.shr 0xA) = true ∧ decode 0x00EF#16 = .instr (.sys 0x0EF#12) ∧
    isShift (.sys 0x0EF#12) = false := by decide

/-- Each side of the map: a SYS word beside the two exact ones, an exact word, and a row with operands. -/
theorem test_witness_DecodeFollowsTheOpcodeMap :
    (0x00E1#16 &&& (maskMatch (.sys 0)).1 = (maskMatch (.sys 0)).2 ∧
      (isSys (.sys 0) = true → 0x00E1#16 ≠ 0x00E0#16 ∧ 0x00E1#16 ≠ 0x00EE#16)) ∧
    (0x00E0#16 &&& (maskMatch .cls).1 = (maskMatch .cls).2 ∧ isSys .cls = false) ∧
    (0x8FF6#16 &&& (maskMatch (.shr 0)).1 = (maskMatch (.shr 0)).2 ∧ isSys (.shr 0) = false) := by decide

/-- A word of each line of the table at its range's edges, with its neighbour outside. -/
theorem test_witness_IllegalWordsAreTheTable :
    (fieldA 0x5001#16 = 0x5 ∧ fieldN 0x5001#16 ≠ 0 ∧ fieldN 0x5FF0#16 = 0) ∧
    (fieldA 0x8008#16 = 0x8 ∧ fieldN 0x8008#16 ∈ [0x8, 0x9, 0xA, 0xB, 0xC, 0xD, 0xF] ∧
      fieldN 0x8007#16 ∉ [0x8, 0x9, 0xA, 0xB, 0xC, 0xD, 0xF] ∧ fieldN 0x800E#16 ∉ [0x8, 0x9, 0xA, 0xB, 0xC, 0xD, 0xF]) ∧
    (fieldA 0x900F#16 = 0x9 ∧ fieldN 0x900F#16 ≠ 0) ∧
    (fieldA 0xE09F#16 = 0xE ∧ fieldKK 0xE09F#16 ∉ [0x9E#8, 0xA1#8]) ∧
    (fieldA 0xF066#16 = 0xF ∧
      fieldKK 0xF066#16 ∉ [0x07#8, 0x0A#8, 0x15#8, 0x18#8, 0x1E#8, 0x29#8, 0x33#8, 0x55#8, 0x65#8]) := by decide

theorem test_witness_OnlySysAndShiftsIgnoreBits :
    decode 0x8AB7#16 = .instr (.subn 0xA 0xB) ∧ isShift (.subn 0xA 0xB) = false := by decide

/-- READY with an empty schedule, and with the ENGINE first on it; 0x200 holds `00 00`, SYS. -/
theorem test_witness_StepRunsTheDecodedInstruction :
    (EngineNext State.reset [] ∧ State.reset.phase = .ready ∧
      decodeBytes [State.reset.readByte State.reset.pc.toNat, State.reset.readByte (State.reset.pc.toNat + 1)] =
        .instr (.sys 0)) ∧
    EngineNext (State.reset.setSchedule [.engine, .tickDelay]) [.tickDelay] := by decide

theorem test_witness_IllegalWordHalts :
    let s := (State.reset.writeBytes 0x200 [0x51, 0x21]).setSchedule [.engine, .reset]
    EngineNext s [.reset] ∧ s.phase = .ready ∧
      decodeBytes [s.readByte s.pc.toNat, s.readByte (s.pc.toNat + 1)] = .illegal .family5 := by decide

/-- P5: V0 and V1 stored over the word the next cycle fetches; and at the top of memory, `I = 0xFFF`. -/
theorem test_witness_StoreIsSeenByTheNextFetch :
    (∃ t, exec (.ldMemVx 1) ((State.reset.setPc 0x0208#16).setI 0x0208#16) = .next t ∧ (1 : Nib) ≤ 1 ∧
      (1 : Nib).val = (0 : Nib).val + 1 ∧ t.pc.toNat % 4096 = (0x0208 + (0 : Nib).val) % 4096) ∧
    (∃ t, exec (.ldMemVx 15) ((State.reset.setPc 0x000D#16).setI 0x0FFF#16) = .next t ∧ (15 : Nib) ≤ 15 ∧
      (15 : Nib).val = (14 : Nib).val + 1 ∧ t.pc.toNat % 4096 = (0x0FFF + (14 : Nib).val) % 4096) :=
  ⟨⟨_, rfl, by decide, by decide, by decide⟩, ⟨_, rfl, by decide, by decide, by decide⟩⟩

/-- `1200` at 0x200. -/
theorem test_witness_JumpGoesToItsAddress :
    let s := State.reset.writeBytes 0x200 [0x12, 0x00]
    EngineNext s [] ∧ s.phase = .ready ∧ decode s.fetchWord = .instr (.jp 0x200#12) ∧
      s.pc.toNat = (0x200#12).toNat := by decide

theorem test_witness_CallPushesTheReturnAddress :
    (fetched.setSp 14).sp.toNat < 15 ∧ fetched.sp.toNat < 15 := by decide

theorem test_witness_ReturnPopsTheTopSlot :
    ((fetched.setSp 1).sp.toNat = (1 : Nib).val ∧ (1 : Nib) ≠ 0) ∧
    ((fetched.setSp 15).sp.toNat = (15 : Nib).val ∧ (15 : Nib) ≠ 0) := by decide

theorem test_witness_ReturnUndoesTheCall :
    ∃ t u : State, fetched.sp.toNat < 15 ∧ exec (.call 0x300#12) fetched = .next t ∧ u.sp = t.sp ∧ ∀ k, u.slot k = t.slot k :=
  ⟨_, _, by decide, rfl, rfl, fun _ => rfl⟩

theorem test_witness_StackFaultsHalt : (fetched.setSp 15).sp = 15#8 ∧ fetched.sp = 0#8 := by decide

/-- An address that wraps, with a register equal to the immediate and with one that differs. -/
theorem test_witness_ImmediateSkipsAreComplements :
    (State.reset.setPc 0x0000#16).pc = 0xFFFE#16 + 2#16 ∧ fetched.pc = 0x0200#16 + 2#16 ∧ fetched.reg 3 = 0x00#8 ∧
    fetched.reg 3 ≠ 0x2A#8 := by decide

theorem test_witness_RegisterSkipsAreComplements :
    fetched.pc = 0x0200#16 + 2#16 ∧ fetched.reg 1 = fetched.reg 2 ∧ (fetched.setReg 1 7).reg 1 ≠ fetched.reg 2 := by decide

/-- `x` not VF; sums of 255 and 256. -/
theorem test_witness_AddSetsCarry :
    (14 : Nib) ≠ VF ∧ ((regs [(14, 0xFF), (1, 1)]).reg 14).toNat + ((regs [(14, 0xFF), (1, 1)]).reg 1).toNat > 255 ∧
    ¬((regs [(14, 0xFF)]).reg 14).toNat + ((regs [(14, 0xFF)]).reg 1).toNat > 255 := by decide

/-- `x` not VF; equal operands, and operands one apart either way. -/
theorem test_witness_SubtractFlagIsStrict :
    (0 : Nib) ≠ VF ∧ ¬((regs []).reg 0).toNat > ((regs []).reg 1).toNat ∧
    ((regs [(0, 1)]).reg 0).toNat > ((regs [(0, 1)]).reg 1).toNat ∧
    ((regs [(1, 1)]).reg 1).toNat > ((regs [(1, 1)]).reg 0).toNat := by decide

theorem test_witness_ShiftsMoveOneBit : (0 : Nib) ≠ VF ∧ ((regs [(0, 0x81)]).reg 0).toNat % 2 = 1 := by decide

theorem test_witness_FlagAndResultAreExact :
    (0 : Nib) ≠ VF ∧ (∃ t, exec (.addReg 0 1) (regs [(0, 0xFF), (1, 1)]) = .next t) ∧
    (∃ t, exec (.sub 0 1) (regs [(0, 1)]) = .next t ∧ t.reg VF = 1#8) ∧
    (∃ t, exec (.subn 0 1) (regs [(1, 1)]) = .next t ∧ t.reg VF = 1#8) ∧
    (∃ t, exec (.shr 0) (regs [(0, 0xFF)]) = .next t) ∧ (∃ t, exec (.shl 0) (regs [(0, 0xFF)]) = .next t) :=
  ⟨by decide, ⟨_, rfl⟩, ⟨_, rfl, by decide⟩, ⟨_, rfl, by decide⟩, ⟨_, rfl⟩, ⟨_, rfl⟩⟩

theorem test_witness_RandomByteIsMasked : (0x0F#8).getLsbD 4 = false ∧ (0x0F#8).getLsbD 7 = false := by decide

/-- An address next to the stored bytes, on the side where memory wraps too. -/
theorem test_witness_DecimalDigitsAreStored :
    (2 % 4096 ≠ 0x0FFF % 4096 ∧ 2 % 4096 ≠ (0x0FFF + 1) % 4096 ∧ 2 % 4096 ≠ (0x0FFF + 2) % 4096) ∧
    (0x0FFE % 4096 ≠ 0x0FFF % 4096 ∧ 0x0FFE % 4096 ≠ (0x0FFF + 1) % 4096 ∧ 0x0FFE % 4096 ≠ (0x0FFF + 2) % 4096) := by decide

/-- The last stored register is `x` itself; the byte after it is outside. -/
theorem test_witness_RegistersAreStored :
    (15 : Nib) ≤ 15 ∧ (0 : Nib) ≤ 0 ∧ (∀ r : Nib, r ≤ 2 → (0x0400 + 3) % 4096 ≠ (0x0400 + r.val) % 4096) := by decide

theorem test_witness_RegistersAreLoaded :
    ((regs [(0, 0x0F)]).reg 0).toNat ≤ 15 ∧ (15 : Nib) ≤ 15 ∧ ¬(3 : Nib) ≤ 2 := by decide

theorem test_witness_LoadAfterStoreRestores :
    ∃ t u : State, exec (.ldMemVx 15) (fetched.setI 0x0FFF#16) = .next t ∧ u.mem = t.mem ∧ u.I = t.I ∧ u.pc ≠ t.pc :=
  ⟨_, _, rfl, (rfl : (State.setPc _ 0x0300#16).mem = _), rfl, by decide⟩

theorem test_witness_GlyphBytesAreReachable :
    ((regs [(0, 0x0F)]).reg 0 = BitVec.ofNat 8 (15 : Nib).val ∧
      ∀ a < 80, (regs [(0, 0x0F)]).readByte a = State.reset.readByte a) ∧
    (State.reset.reg 0 = BitVec.ofNat 8 (0 : Nib).val ∧ ∀ a < 80, State.reset.readByte a = State.reset.readByte a) :=
  ⟨⟨by decide, fun _ _ => rfl⟩, by decide, fun _ _ => rfl⟩

/-- The last pixel of each resolution, lit under the sprite and dark under it. -/
theorem test_witness_DrawXorsTheSprite :
    let s := (State.reset.setFB [2047]).setI 0x0000#16
    (63 < State.reset.res.width ∧ 31 < State.reset.res.height) ∧ s.pixel 63 31 = true ∧ s.pixel 62 31 = false ∧
    (s.readByte 0).getLsbD 7 = true := by decide

theorem test_witness_DrawTwiceErases :
    ∃ t u, (0 : Nib) ≠ VF ∧ (14 : Nib) ≠ VF ∧ exec (.drw 0 14 5) State.reset = .next t ∧
      exec (.drw 0 14 5) t = .next u ∧ (∀ px py, State.reset.pixel px py = false) :=
  ⟨_, _, by decide, by decide, rfl, rfl, fun _ _ => rfl⟩

theorem test_witness_OnlyDrawRequestsARender :
    (∃ t, exec (.drw 0 0 0) fetched = .next t) ∧ (∃ t, exec .cls fetched = .next t) := ⟨⟨_, rfl⟩, ⟨_, rfl⟩⟩

/-- Key numbers 0 and 15, down and up. -/
theorem test_witness_KeySkipsAreComplements :
    fetched.pc = 0x0200#16 + 2#16 ∧ (fetched.reg 1).toNat = (0 : Nib).val ∧
    ((fetched.setReg 1 15).reg 1).toNat = (15 : Nib).val ∧ (fetched.setKeys 0x8000#16).keys.getLsbD (15 : Nib).val = true ∧
    fetched.keys.getLsbD (0 : Nib).val ≠ true := by decide

theorem test_witness_KeyNumberAboveFifteenHalts :
    15 < ((fetched.setReg 1 16).reg 1).toNat ∧ 15 < ((fetched.setReg 1 255).reg 1).toNat := by decide

/-- Key 0 down, only key 15 down, and none. -/
theorem test_witness_KeyWaitTakesTheLowestKey :
    ((fetched.setKeys 0x8001#16).keys.getLsbD (0 : Nib).val = true ∧
      ∀ j < (0 : Nib), (fetched.setKeys 0x8001#16).keys.getLsbD j.val = false) ∧
    ((fetched.setKeys 0x8000#16).keys.getLsbD (15 : Nib).val = true ∧
      ∀ j < (15 : Nib), (fetched.setKeys 0x8000#16).keys.getLsbD j.val = false) ∧
    fetched.keys = 0#16 := by decide

theorem test_witness_PollCompletesTheWait :
    let s := ((State.reset.setPhase (.waitKey 3)).setSchedule [.engine]).setKeys 0x8000#16
    (EngineNext s [] ∧ s.phase = .waitKey 3 ∧ s.keys.getLsbD (15 : Nib).val = true ∧
      ∀ j < (15 : Nib), s.keys.getLsbD j.val = false) ∧
    (EngineNext (s.setKeys 0) [] ∧ (s.setKeys 0).phase = .waitKey 3 ∧ (s.setKeys 0).keys = 0#16) := by decide

theorem test_witness_EnvironmentStepsChangeTheirOwn :
    (State.reset.setSchedule [.tickDelay, .engine]).schedule = .tickDelay :: [.engine] ∧
    (State.reset.setSchedule [.tickSound]).schedule = .tickSound :: [] ∧
    (State.reset.setSchedule [.setKeys 0xFFFF#16]).schedule = .setKeys 0xFFFF#16 :: [] := by decide

/-- The frames' hypotheses: an instruction that answers a next state, here with a register, a store, a skip and a wait. -/
theorem test_witness_OnlyDestinationRegistersChange :
    (∃ t, exec (.sub 1 2) fetched = .next t) ∧ (∃ t, exec (.ldVxMem 15) fetched = .next t) := ⟨⟨_, rfl⟩, ⟨_, rfl⟩⟩

theorem test_witness_OnlyNamedSpecialRegistersChange :
    ∃ t, exec (.ldVxK 3) fetched = .next t ∧ writesI (.ldVxK 3) = false ∧ usesStack (.ldVxK 3) = false :=
  ⟨_, rfl, rfl, rfl⟩

theorem test_witness_OnlyStoredBytesChange :
    (∃ t, exec (.ldB 1) (fetched.setI 0x0FFE#16) = .next t) ∧
    (∀ b ∈ storeAddrs (.ldB 1) (fetched.setI 0x0FFE#16), resolve 1 ≠ resolve b) ∧
    (∀ b ∈ storeAddrs (.ldMemVx 15) (fetched.setI 0x0FF0#16), resolve 0 ≠ resolve b) := ⟨⟨_, rfl⟩, by decide, by decide⟩

theorem test_witness_OnlyClearAndDrawChangeTheScreen :
    ∃ t, exec (.jp 0x300#12) fetched = .next t ∧ writesScreen (.jp 0x300#12) = false := ⟨_, rfl, rfl⟩

theorem test_witness_ControlTransfersAreTheListed :
    (∃ t, exec (.seImm 0 0) fetched = .next t) ∧ (∃ t, exec (.call 0x300#12) fetched = .next t) ∧
    (∃ t, exec .ret (fetched.setSp 15) = .next t) := ⟨⟨_, rfl⟩, ⟨_, rfl⟩, ⟨_, rfl⟩⟩

/-- `00EE` at 0x200 with `sp = 0`. -/
theorem test_witness_FaultsArePrecise :
    let s := State.reset.writeBytes 0x200 [0x00, 0xEE]
    EngineNext s [] ∧ s.phase = .ready ∧
      ∃ t, step s = .next t ∧ t.phase = .halted ⟨.stackUnderflow, 0x00EE#16, 0x0200#16⟩ :=
  ⟨by decide, rfl, _, rfl, by decide⟩

theorem test_witness_FaultsHaveTheirRaisers :
    (∃ t f, fetched.phase = .ready ∧ exec (.call 0x300#12) (fetched.setSp 15) = .next t ∧ t.phase = .halted f) ∧
    (∃ t f, exec .ret fetched = .next t ∧ t.phase = .halted f) ∧
    (∃ t f, exec (.sknp 1) (fetched.setReg 1 16) = .next t ∧ t.phase = .halted f) :=
  ⟨⟨_, _, rfl, rfl, rfl⟩, ⟨_, _, rfl, rfl⟩, ⟨_, _, rfl, rfl⟩⟩

/-- HALTED with the ENGINE next, with a tick next, and with a Reset next. -/
theorem test_witness_OnlyResetLeavesHalted :
    let s := State.reset.setPhase (.halted ⟨.stackOverflow, 0x2200#16, 0x0200#16⟩)
    s.phase = .halted ⟨.stackOverflow, 0x2200#16, 0x0200#16⟩ ∧ EngineNext s [] ∧
    (∃ t, step (s.setSchedule [.tickDelay]) = .next t) ∧ (∃ t, step (s.setSchedule [.reset]) = .next t) :=
  ⟨rfl, by decide, ⟨_, rfl⟩, ⟨_, rfl⟩⟩

theorem test_witness_ResetLeavesTheStatedValues :
    (0x050 ≤ 0x050 ∧ 0x050 < 4096) ∧ (0x050 ≤ 0xFFF ∧ 0xFFF < 4096) ∧ (15 < 16 ∧ 4 < 5) := by decide

theorem test_witness_ResetStepDiscardsTheState :
    (State.reset.setSchedule [.reset, .engine]).schedule = .reset :: [.engine] := rfl

/-- A program of no bytes and one of the largest size; one byte too many; a load after a cycle, one in WAITKEY and a
second one. -/
theorem test_witness_LoadPlacesTheProgram :
    (([] : List Byte).length ≤ 3584 ∧ State.reset.phase = .ready ∧ State.reset.cycled = false ∧
      State.reset.loaded = false) ∧
    ((List.replicate 3584 (0#8 : Byte)).length ≤ 3584 ∧ 3584 < (List.replicate 3585 (0#8 : Byte)).length) ∧
    (State.reset.setCycled true).cycled = true ∧ (State.reset.setPhase (.waitKey 0)).phase ≠ .ready ∧
    ((State.reset.setLoaded true).phase = .ready ∧ (State.reset.setLoaded true).cycled = false ∧
      (State.reset.setLoaded true).loaded = true) ∧
    (State.reset.setSchedule [.load []]).schedule = .load [] :: [] :=
  ⟨by decide, ⟨by rw [List.length_replicate], by rw [List.length_replicate]; decide⟩, by decide, by decide, by decide,
    by decide⟩

/-- A program of two bytes loaded right after reset; the bytes at both of its sides are outside it. -/
theorem test_witness_UncoveredBytesKeepTheirResetValue :
    let s := State.reset.setSchedule [.load [0x60, 0x0A]]
    StateInv s ∧ s.schedule = .load [0x60, 0x0A] :: [] ∧ (∃ t, step s = .next t) ∧
      (0x1FF < 4096 ∧ 0x1FF < 0x200) ∧ (0x202 < 4096 ∧ 0x200 + 2 ≤ 0x202) :=
  ⟨by decide, by decide, ⟨_, rfl⟩, by decide, by decide⟩

/-- A state that meets the invariant, is not the reset state, and steps. -/
theorem test_witness_EveryStepKeepsTheInvariant :
    let s := (((State.reset.writeBytes 0x200 [0x60, 0x0A]).setLoaded true).setFB [0, 2047]).setSp 15
    StateInv s ∧ ∃ t, step s = .next t := ⟨by decide, _, rfl⟩

theorem test_witness_StackSlotZeroIsNeverUsed :
    (∃ t, step State.reset = .next t) ∧ (∃ t, exec (.call 0x300#12) (fetched.setSp 14) = .next t) := ⟨⟨_, rfl⟩, ⟨_, rfl⟩⟩

theorem test_witness_EngineAlwaysAnswers :
    let s := (State.reset.setPhase (.waitKey 3)).setCycled true
    s.sp.toNat ≤ 15 ∧ (s.setSp 15).sp.toNat ≤ 15 ∧ EngineNext s [] ∧ (∀ f, s.phase ≠ .halted f) := ⟨by decide, by decide, by decide, fun _ h => by cases h⟩

end Sys2Proof.Tests
end

section
/-! PROOFS. The encoding of spec/30_encoding.md: a word that decodes to anything but a shift is the word of its instruction,
the one sense in which no bit is ignored (R78), and the fetched word is its two bytes (R71). -/

namespace Sys2Proof

/-! ### A word built from the fields the decoder has tested and those it hands on -/

theorem encA_of_family {w : Word} {a : Nib} (ha : fieldA w = a) : encA a (fieldNNN w) = w := by
  rw [← ha, encA_fields]

theorem encXK_of_family {w : Word} {a : Nib} (ha : fieldA w = a) : encXK a (fieldX w) (fieldKK w) = w := by
  rw [← ha, encXK_fields]

theorem encXK_of_lowByte {w : Word} {a : Nib} {kk : Byte} (ha : fieldA w = a) (hk : fieldKK w = kk) :
    encXK a (fieldX w) kk = w := by
  rw [← hk, encXK_of_family ha]

theorem encXY_of_family {w : Word} {a : Nib} (ha : fieldA w = a) :
    encXY a (fieldX w) (fieldY w) (fieldN w) = w := by
  rw [← ha, encXY_fields]

theorem encXY_of_lowNibble {w : Word} {a d : Nib} (ha : fieldA w = a) (hd : fieldN w = d) :
    encXY a (fieldX w) (fieldY w) d = w := by
  rw [← hd, encXY_of_family ha]

/-! ### Encoding what was decoded, one lemma per family that has sub-opcodes -/

variable {w : Word} {i : Instr}

theorem encode_of_decode0 (ha : fieldA w = 0x0) (h : decode0 w = .instr i) : encode i = w := by
  unfold decode0 at h
  split_ifs at h with hcls hret <;> cases h
  · exact hcls.symm
  · exact hret.symm
  · exact encA_of_family ha

theorem encode_of_decode5 (ha : fieldA w = 0x5) (h : decode5 w = .instr i) : encode i = w := by
  unfold decode5 at h
  split_ifs at h with hd
  cases h
  exact encXY_of_lowNibble ha hd

/-- The family of the shifts: their `y` is lost, every other row keeps both registers. -/
theorem encode_of_decode8 (ha : fieldA w = 0x8) (h : decode8 w = .instr i) (hs : Machine.isShift i = false) :
    encode i = w := by
  unfold decode8 at h
  split at h <;> cases h
  -- The seventh and ninth rows are SHR and SHL, which `hs` excludes.
  case h_7 | h_9 => cases hs
  all_goals exact encXY_of_lowNibble ha (Fin.ext ‹_›)

theorem encode_of_decode9 (ha : fieldA w = 0x9) (h : decode9 w = .instr i) : encode i = w := by
  unfold decode9 at h
  split_ifs at h with hd
  cases h
  exact encXY_of_lowNibble ha hd

theorem encode_of_decodeE (ha : fieldA w = 0xE) (h : decodeE w = .instr i) : encode i = w := by
  unfold decodeE at h
  split_ifs at h with hk hk <;> cases h <;> exact encXK_of_lowByte ha hk

theorem encode_of_decodeF (ha : fieldA w = 0xF) (h : decodeF w = .instr i) : encode i = w := by
  unfold decodeF at h
  split_ifs at h with hk hk hk hk hk hk hk hk hk <;> cases h <;> exact encXK_of_lowByte ha hk

/-- A word that decodes to anything but a shift is the word of that instruction: every bit is fixed by the pattern or an
operand (R78). -/
theorem encode_of_decode (h : decode w = .instr i) (hs : Machine.isShift i = false) : encode i = w := by
  unfold decode at h
  -- The cases stand in the order of the families, `h_1` for family 0 to `h_16` for family F.
  split at h
  case h_1 ha => exact encode_of_decode0 (Fin.ext ha) h
  case h_6 ha => exact encode_of_decode5 (Fin.ext ha) h
  case h_9 ha => exact encode_of_decode8 (Fin.ext ha) h hs
  case h_10 ha => exact encode_of_decode9 (Fin.ext ha) h
  case h_15 ha => exact encode_of_decodeE (Fin.ext ha) h
  case h_16 =>
    have hlt : (fieldA w).val < 16 := (fieldA w).isLt
    have ha : (fieldA w).val = 0xF := by grind only
    exact encode_of_decodeF (Fin.ext ha) h
  case h_2 ha | h_3 ha | h_11 ha | h_12 ha => cases h; exact encA_of_family (Fin.ext ha)
  case h_14 ha => cases h; exact encXY_of_family (Fin.ext ha)
  case h_4 ha | h_5 ha | h_7 ha | h_8 ha | h_13 ha => cases h; exact encXK_of_family (Fin.ext ha)

/-! ### The bits that are ignored -/

/-- Every `y` gives the same SHR (R78 (b)). -/
theorem decode_shr (x y : Nib) : decode (encXY 0x8 x y 0x6) = .instr (.shr x) := by
  obtain ⟨ha, hx, -, hd⟩ := fields_encXY 0x8 x y 0x6
  simp [decode, decode8, ha, hx, hd]

/-- Every `y` gives the same SHL (R78 (b)). -/
theorem decode_shl (x y : Nib) : decode (encXY 0x8 x y 0xE) = .instr (.shl x) := by
  obtain ⟨ha, hx, -, hd⟩ := fields_encXY 0x8 x y 0xE
  simp [decode, decode8, ha, hx, hd]

end Sys2Proof

namespace Sys2Proof.Machine

/-- SYS only completes its cycle, whatever its address (40_control_flow.md R101). -/
theorem exec_sys (nnn : Addr12) (s : State) : exec (.sys nnn) s = s.finish false := rfl

/-- The fetched word is made of the byte at `pc` and the one behind it (R71). -/
theorem State.fetchWord_eq (s : State) :
    s.fetchWord = wordOfBytes (s.readByte s.pc.toNat) (s.readByte (s.pc.toNat + 1)) := rfl

/-- The high byte of the fetched word is the byte at `pc` (R71). -/
theorem State.highByte_fetchWord (s : State) : highByte s.fetchWord = s.readByte s.pc.toNat := by
  rw [State.fetchWord_eq, (bytes_wordOfBytes _ _).1]

/-- The low byte of the fetched word is the byte at `pc + 1` (R71). -/
theorem State.lowByte_fetchWord (s : State) : lowByte s.fetchWord = s.readByte (s.pc.toNat + 1) := by
  rw [State.fetchWord_eq, (bytes_wordOfBytes _ _).2]

/-- Settles O5: SYS answers without its address, the decoder drops `y` of the shifts, and any other instruction has only
one word, its encoding. -/
theorem onlySysAndShiftsIgnoreBits : Obligations.OnlySysAndShiftsIgnoreBits := by
  refine ⟨fun m n s => ?sys, fun x y => ⟨decode_shr x y, decode_shl x y⟩, fun w w' i h h' hs => ?others⟩
  case sys => rw [exec_sys, exec_sys]
  case others =>
    calc w = encode i := (encode_of_decode h hs).symm
      _ = w' := encode_of_decode h' hs

/-- Settles O7: the two bytes of the fetched word, each read at its own resolved address, and the fetched bytes decode as
that word. -/
theorem fetchTakesTheFirstByteHigh : Obligations.FetchTakesTheFirstByteHigh := fun s =>
  ⟨s.highByte_fetchWord, s.lowByte_fetchWord, s.decode_fetch⟩

end Sys2Proof.Machine
end

section
/-! PROOFS. Control flow (40_control_flow.md): the step that runs a decoded instruction (R100), the jump to a fixed address
(R103), and the skips on an immediate (R105, R106). -/

namespace Sys2Proof.Machine

/-! ### The step, the jump and the skips -/

/-- An ENGINE step in READY runs the instruction of the fetched word on the state with `pc` advanced (R100). -/
theorem step_of_decode {s : State} {rest : List AgentStep} {i : Instr} (hnext : EngineNext s rest)
    (hready : s.phase = .ready) (hdec : decode s.fetchWord = .instr i) :
    step s = exec i (s.setSchedule rest).advance := by
  have hword : decode (s.setSchedule rest).fetchWord = .instr i := hdec
  simp only [step_engine hnext, engineStep, State.setSchedule_phase, hready, cycle, State.decode_fetch, hword]

/-- JP completes with `pc` at its address (R103). -/
theorem exec_jp (nnn : Addr12) (s : State) : exec (.jp nnn) s = (s.setPc (extAddr nnn)).finish false := rfl

/-- SE with an immediate skips on equality (R105). -/
theorem exec_seImm (x : Nib) (kk : Byte) (s : State) :
    exec (.seImm x kk) s = (s.skipIf (s.reg x == kk)).finish false := rfl

/-- SNE with an immediate skips on inequality (R106). -/
theorem exec_sneImm (x : Nib) (kk : Byte) (s : State) :
    exec (.sneImm x kk) s = (s.skipIf (s.reg x != kk)).finish false := rfl

/-- An address widened to 16 bits is a word exactly when their numbers agree. -/
theorem extAddr_eq_iff (nnn : Addr12) (w : Word) : extAddr nnn = w ↔ w.toNat = nnn.toNat := by
  rw [← BitVec.toNat_inj, extAddr_toNat, eq_comm]

/-- A skip leaves every register alone (R105). -/
@[simp] theorem State.skipIf_reg (s : State) (c : Bool) (r : Nib) : (s.skipIf c).reg r = s.reg r := by
  rw [State.skipIf_eq, State.setPc_reg]

/-- In the cycle of the instruction at `A`, a skip that is taken goes to `A + 4`, and one that is not to `A + 2` (R105). -/
theorem State.skipIf_pc_of_advanced {s : State} {A : Word} (hpc : s.pc = A + 2#16) (c : Bool) :
    (s.skipIf c).pc = if c then A + 4#16 else A + 2#16 := by
  rw [State.skipIf_eq, State.setPc_pc, hpc, BitVec.add_assoc]
  rfl

/-! ### The statements -/

/-- A jump to its own address puts back the `pc` that the advance moved: the step changes the model's own fields only
(R103). -/
theorem step_jp_to_itself {s : State} {rest : List AgentStep} {nnn : Addr12} (hnext : EngineNext s rest)
    (hready : s.phase = .ready) (hdec : decode s.fetchWord = .instr (.jp nnn)) (hself : s.pc.toNat = nnn.toNat) :
    step s = .next { s with cycled := true, schedule := rest, outcome := some (.completed false) } := by
  rw [step_of_decode hnext hready hdec, exec_jp, (extAddr_eq_iff nnn s.pc).mpr hself]
  rfl

/-- Settles O12: the jump sets `pc` alone, and one to its own address undoes the advance of its own cycle. -/
theorem jumpGoesToItsAddress : Obligations.JumpGoesToItsAddress := by
  refine ⟨fun nnn s => ?target, fun s rest nnn => step_jp_to_itself⟩
  case target =>
    exact ⟨_, exec_jp nnn s, extAddr_toNat nnn, fun _ _ => rfl, ⟨rfl, fun _ => rfl⟩, rfl⟩

/-- Settles O18: both skips go by the same comparison, SNE by its negation. -/
theorem immediateSkipsAreComplements : Obligations.ImmediateSkipsAreComplements := by
  intro x kk s A hpc
  refine ⟨_, _, exec_seImm x kk s, exec_sneImm x kk s, ?se, ?sne, ?seRegs, ?sneRegs, rfl, rfl⟩
  case se => simp [State.skipIf_pc_of_advanced hpc]
  case sne =>
    -- SNE's condition is the negation of SE's, so its branches stand the other way round.
    by_cases heq : s.reg x = kk <;> simp [State.skipIf_pc_of_advanced hpc, heq]
  case seRegs | sneRegs => intro r _; simp

end Sys2Proof.Machine
end

section
/-! PROOFS. Arithmetic and logic (41_alu.md): the two ways an instruction writes its result, with VF (R120) and without
(R121 to R126), the flags and results as numbers, and the statements. -/

namespace Sys2Proof.Machine

/-! ### What each instruction writes -/

section Exec
variable (x y : Nib) (kk : Byte) (s : State)

/-- LD Vx, kk (R121). -/
theorem exec_ldImm : exec (.ldImm x kk) s = (s.setReg x kk).finish false := rfl

/-- ADD Vx, kk (R122). -/
theorem exec_addImm : exec (.addImm x kk) s = (s.setReg x (s.reg x + kk)).finish false := rfl

/-- LD Vx, Vy (R123). -/
theorem exec_ldReg : exec (.ldReg x y) s = (s.setReg x (s.reg y)).finish false := rfl

/-- OR (R124). -/
theorem exec_orReg : exec (.orReg x y) s = (s.setReg x (s.reg x ||| s.reg y)).finish false := rfl

/-- AND (R125). -/
theorem exec_andReg : exec (.andReg x y) s = (s.setReg x (s.reg x &&& s.reg y)).finish false := rfl

/-- XOR (R126). -/
theorem exec_xorReg : exec (.xorReg x y) s = (s.setReg x (s.reg x ^^^ s.reg y)).finish false := rfl

/-- ADD Vx, Vy (R127). -/
theorem exec_addReg : exec (.addReg x y) s =
    (s.writeFlagged x (carryFlag (s.reg x) (s.reg y)) (s.reg x + s.reg y)).finish false := rfl

/-- SUB: the minuend is `Vx` (R128). -/
theorem exec_sub : exec (.sub x y) s =
    (s.writeFlagged x (greaterFlag (s.reg x) (s.reg y)) (s.reg x - s.reg y)).finish false := rfl

/-- SHR (R129). -/
theorem exec_shr : exec (.shr x) s =
    (s.writeFlagged x (lowBitFlag (s.reg x)) (s.reg x >>> 1)).finish false := rfl

/-- SUBN: the minuend is `Vy` (R130). -/
theorem exec_subn : exec (.subn x y) s =
    (s.writeFlagged x (greaterFlag (s.reg y) (s.reg x)) (s.reg y - s.reg x)).finish false := rfl

/-- SHL (R131). -/
theorem exec_shl : exec (.shl x) s =
    (s.writeFlagged x (highBitFlag (s.reg x)) (s.reg x <<< 1)).finish false := rfl

end Exec

/-! ### Registers after a completed cycle -/

section Completed
variable {s : State} {x : Nib} {c : Bool} {b : Byte} {o : Option EngineOutcome}

/-- A write to `Vx` is the only change of a register (R20). -/
theorem keepsRegsBut_setReg : KeepsRegsBut [x] s ((s.setReg x b).setOutcome o) := by
  intro r hr
  rw [State.setOutcome_reg, State.setReg_reg, if_neg (List.ne_of_not_mem_cons hr)]

/-- The destination of a plain write holds the result (R20). -/
theorem setReg_reg_dest : ((s.setReg x b).setOutcome o).reg x = b := by
  rw [State.setOutcome_reg, State.setReg_reg, if_pos rfl]

/-- A flagged write changes `Vx` and VF at most (R120). -/
theorem keepsRegsBut_writeFlagged : KeepsRegsBut [x, VF] s ((s.writeFlagged x c b).setOutcome o) := by
  intro r hr
  obtain ⟨hx, hVF⟩ : r ≠ x ∧ r ≠ VF := by simpa using hr
  rw [State.setOutcome_reg, State.writeFlagged_reg, if_neg hx, if_neg hVF]

/-- The destination of a flagged write holds the result, VF included (R120). -/
theorem writeFlagged_reg_dest : ((s.writeFlagged x c b).setOutcome o).reg x = b := by
  rw [State.setOutcome_reg, State.writeFlagged_reg, if_pos rfl]

/-- VF holds the flag when it is not the destination (R120). -/
theorem writeFlagged_reg_VF (hx : x ≠ VF) : ((s.writeFlagged x c b).setOutcome o).reg VF = flagByte c := by
  rw [State.setOutcome_reg, State.writeFlagged_reg, if_neg hx.symm, if_pos rfl]

end Completed

/-! ### Flags and results as numbers -/

section Numbers
variable (p q : Byte)

/-- The carry flag is 1 exactly when the sum is above 255 (R127). -/
theorem flagByte_carryFlag :
    flagByte (carryFlag p q) = if p.toNat + q.toNat > 255 then 1#8 else 0#8 := by
  simp only [flagByte, carryFlag, decide_eq_true_eq]

/-- The flag of a subtraction is 1 exactly when the minuend is strictly the greater (R128, R130). -/
theorem flagByte_greaterFlag : flagByte (greaterFlag p q) = if p.toNat > q.toNat then 1#8 else 0#8 := by
  simp only [flagByte, greaterFlag, decide_eq_true_eq]

/-- A flag as a number (10_state.md R21). -/
theorem flagByte_toNat (c : Bool) : (flagByte c).toNat = c.toNat := by cases c <;> rfl

/-- The bit a right shift loses is the remainder by two (R129). -/
theorem flagByte_lowBitFlag_toNat : (flagByte (lowBitFlag p)).toNat = p.toNat % 2 := by
  rw [flagByte_toNat, lowBitFlag, BitVec.getLsbD, Nat.toNat_testBit, pow_zero, Nat.div_one]

/-- The bit a left shift loses is the quotient by 128: a byte has no bit above it (R131). -/
theorem flagByte_highBitFlag_toNat : (flagByte (highBitFlag p)).toNat = p.toNat / 128 := by
  have hp := p.isLt
  rw [flagByte_toNat, highBitFlag, BitVec.getLsbD, Nat.toNat_testBit]
  omega

/-- A byte difference borrows 256 (R128, R130). -/
theorem toNat_sub_byte : (p - q).toNat = (p.toNat + 256 - q.toNat) % 256 := by
  bv_omega

/-- One to the right halves (R129). -/
theorem toNat_shiftRight_one : (p >>> 1).toNat = p.toNat / 2 := by
  rw [BitVec.toNat_ushiftRight, Nat.shiftRight_one]

/-- One to the left doubles modulo 256 (R131). -/
theorem toNat_shiftLeft_one : (p <<< 1).toNat = (2 * p.toNat) % 256 := by
  rw [BitVec.toNat_shiftLeft, Nat.shiftLeft_eq, pow_one, Nat.mul_comm]

end Numbers

/-! ### The statements -/

/-- Settles O20: each load is one register write. -/
theorem loadsWriteTheirDestination : Obligations.LoadsWriteTheirDestination := by
  intro x y kk s
  refine ⟨_, _, exec_ldImm x kk s, ?imm, exec_ldReg x y s, ?reg, rfl, rfl⟩
  case imm | reg => exact fun r => by rw [State.setOutcome_reg, State.setReg_reg]

/-- Settles O21: one register write of a byte sum. -/
theorem addImmediateWraps : Obligations.AddImmediateWraps := by
  intro x kk s
  refine ⟨_, exec_addImm x kk s, ?sum, keepsRegsBut_setReg, rfl⟩
  case sum => rw [setReg_reg_dest, BitVec.toNat_add]

/-- Settles O22: one register write each, of a byte taken bit by bit. -/
theorem logicIsBitwise : Obligations.LogicIsBitwise := by
  intro x y s
  refine ⟨_, _, _, exec_orReg x y s, exec_andReg x y s, exec_xorReg x y s, fun k _ => ⟨?or, ?and, ?xor⟩,
    keepsRegsBut_setReg, keepsRegsBut_setReg, keepsRegsBut_setReg, rfl, rfl, rfl⟩
  case or => rw [setReg_reg_dest, BitVec.getLsbD_or]
  case and => rw [setReg_reg_dest, BitVec.getLsbD_and]
  case xor => rw [setReg_reg_dest, BitVec.getLsbD_xor]

/-- Settles O23: the flagged write of the sum, where VF as destination keeps the sum. -/
theorem addSetsCarry : Obligations.AddSetsCarry := by
  intro x y s
  refine ⟨_, exec_addReg x y s, ?sum, fun hx => ?carry, keepsRegsBut_writeFlagged, rfl⟩
  case sum => rw [writeFlagged_reg_dest, BitVec.toNat_add]
  case carry => rw [writeFlagged_reg_VF hx, flagByte_carryFlag]

/-- Settles O24: SUB and SUBN are one flagged write with the operands exchanged. -/
theorem subtractFlagIsStrict : Obligations.SubtractFlagIsStrict := by
  intro x y s
  refine ⟨_, _, exec_sub x y s, exec_subn x y s, ?diff, ?diffn, fun hx => ⟨?flag, ?flagn⟩,
    keepsRegsBut_writeFlagged, keepsRegsBut_writeFlagged, rfl, rfl⟩
  case diff | diffn => rw [writeFlagged_reg_dest, toNat_sub_byte]
  case flag | flagn => rw [writeFlagged_reg_VF hx, flagByte_greaterFlag]

/-- Settles O25: the decoder drops `y`, and each shift is the flagged write of the moved byte and the bit lost. -/
theorem shiftsMoveOneBit : Obligations.ShiftsMoveOneBit := by
  refine ⟨fun x y => ⟨decode_shr x y, decode_shl x y⟩, fun x s => ?effect⟩
  case effect =>
    refine ⟨_, _, exec_shr x s, exec_shl x s, ?half, ?twice, fun hx => ⟨?low, ?high⟩,
      keepsRegsBut_writeFlagged, keepsRegsBut_writeFlagged, rfl, rfl⟩
    case half => rw [writeFlagged_reg_dest, toNat_shiftRight_one]
    case twice => rw [writeFlagged_reg_dest, toNat_shiftLeft_one]
    case low => rw [writeFlagged_reg_VF hx, flagByte_lowBitFlag_toNat]
    case high => rw [writeFlagged_reg_VF hx, flagByte_highBitFlag_toNat]

end Sys2Proof.Machine
end

section
/-! PROOFS. The index register and memory (42_index_memory.md): what each instruction writes and leaves alone (R140, R142 to
R145), the bytes it stores or loads, and the statements. -/

namespace Sys2Proof.Machine

/-! ### What each instruction does -/

section Exec
variable (x : Nib) (s : State)

/-- LD I, nnn (R140). -/
theorem exec_ldI (nnn : Addr12) : exec (.ldI nnn) s = (s.setI (extAddr nnn)).finish false := rfl

/-- LD F, Vx (R142). -/
theorem exec_ldF : exec (.ldF x) s = (s.setI (extByte (s.reg x) * 5#16)).finish false := rfl

/-- LD B, Vx: the digits are written from `I` up (R143). -/
theorem exec_ldB : exec (.ldB x) s = (s.writeBytes s.I.toNat (decimalDigits (s.reg x))).finish false := rfl

/-- LD [I], Vx (R144). -/
theorem exec_ldMemVx : exec (.ldMemVx x) s = (s.storeRegs (regsUpTo x)).finish false := rfl

/-- LD Vx, [I] (R145). -/
theorem exec_ldVxMem : exec (.ldVxMem x) s = (s.loadRegs (regsUpTo x)).finish false := rfl

end Exec

/-! ### What a transfer leaves alone -/

section Frames
variable (s : State)

/-- Writing bytes keeps the index register (R146). -/
@[simp] theorem State.writeBytes_I (a : Nat) (bs : List Byte) : (s.writeBytes a bs).I = s.I := by
  rw [State.writeBytes_frame, State.setMem_I]

/-- Writing bytes keeps every register. -/
@[simp] theorem State.writeBytes_reg (a : Nat) (bs : List Byte) (r : Nib) : (s.writeBytes a bs).reg r = s.reg r := by
  rw [State.writeBytes_frame, State.setMem_reg]

/-- Storing registers keeps the index register (R146). -/
@[simp] theorem State.storeRegs_I (l : List Nib) : (s.storeRegs l).I = s.I := by
  rw [State.storeRegs_frame, State.setMem_I]

/-- Storing registers keeps every register (R144). -/
@[simp] theorem State.storeRegs_reg (l : List Nib) (r : Nib) : (s.storeRegs l).reg r = s.reg r := by
  rw [State.storeRegs_frame, State.setMem_reg]

/-- Loading registers keeps the index register (R146). -/
@[simp] theorem State.loadRegs_I (l : List Nib) : (s.loadRegs l).I = s.I := by
  rw [State.loadRegs_frame]

/-- Loading registers keeps memory (R145). -/
@[simp] theorem State.loadRegs_readByte (l : List Nib) (a : Nat) : (s.loadRegs l).readByte a = s.readByte a := by
  rw [State.loadRegs_frame]; rfl

end Frames

/-! ### The bytes transferred -/

/-- The digits written from an address up are read back as numbers at it and at the two addresses behind it (R143). -/
theorem State.writeBytes_decimalDigits (s : State) (a : Nat) (p : Byte) :
    ((s.writeBytes a (decimalDigits p)).readByte a).toNat = p.toNat / 100 ∧
    ((s.writeBytes a (decimalDigits p)).readByte (a + 1)).toNat = p.toNat / 10 % 10 ∧
    ((s.writeBytes a (decimalDigits p)).readByte (a + 2)).toNat = p.toNat % 10 := by
  have hp := p.isLt
  have hread : ∀ i (hi : i < 3),
      ((s.writeBytes a (decimalDigits p)).readByte (a + i)).toNat = (decimalDigits p)[i].toNat := fun i hi =>
    congrArg BitVec.toNat (s.writeBytes_readByte a i (decimalDigits p) (by decide : 3 ≤ 4096) hi)
  -- No digit is reduced: the highest, `p / 100`, is at most 2.
  refine ⟨(hread 0 (by decide)).trans (Nat.mod_eq_of_lt ?_), (hread 1 (by decide)).trans (Nat.mod_eq_of_lt ?_),
    (hread 2 (by decide)).trans (Nat.mod_eq_of_lt ?_)⟩ <;> omega

/-- The address of a digit's glyph needs no reduction, whatever the byte (R142). -/
theorem glyphAddress_toNat (b : Byte) : (extByte b * 5#16).toNat = 5 * b.toNat := by
  have hb := b.isLt
  rw [BitVec.toNat_mul, extByte_toNat, BitVec.toNat_ofNat]
  omega

/-- A load of V0 alone reads the byte at `I` (R145). -/
theorem State.loadRegs_reg_zero (s : State) : (s.loadRegs (regsUpTo 0)).reg 0 = s.readByte s.I.toNat := by
  rw [State.loadRegs_reg, if_pos ((mem_regsUpTo 0 0).mpr le_rfl)]; rfl

/-! ### The statements

Where a statement reads memory at an address modulo 4096, that is `State.readByte` by its definition (R51). -/

/-- Settles O28: one write of the widened address to `I`. -/
theorem loadIndexTakesTheAddress : Obligations.LoadIndexTakesTheAddress := fun nnn s =>
  ⟨_, exec_ldI s nnn, extAddr_toNat nnn, fun _ _ => rfl, rfl⟩

/-- Settles O30: the three digits are one run of bytes written from `I` up. -/
theorem decimalDigitsAreStored : Obligations.DecimalDigitsAreStored := by
  intro x s
  obtain ⟨hundreds, tens, ones⟩ := s.writeBytes_decimalDigits s.I.toNat (s.reg x)
  refine ⟨_, exec_ldB x s, hundreds, tens, ones, fun a h0 h1 h2 => ?others,
    State.writeBytes_I .., fun r _ => State.writeBytes_reg .., rfl⟩
  case others =>
    refine State.writeBytes_readByte_other s s.I.toNat a _ fun i (hi : i < 3) => ?_
    interval_cases i
    exacts [h0, h1, h2]

/-- Settles O31: V0 to Vx are distinct registers, so each is stored once, at an address of its own. -/
theorem registersAreStored : Obligations.RegistersAreStored := by
  intro x s
  refine ⟨_, exec_ldMemVx x s, fun r hr => ?stored, fun a ha => ?others,
    State.storeRegs_I .., fun r _ => State.storeRegs_reg .., rfl⟩
  case stored => exact s.storeRegs_readByte (regsUpTo x) (regsUpTo_nodup x) r ((mem_regsUpTo x r).mpr hr)
  case others =>
    exact s.storeRegs_readByte_other (regsUpTo x) a fun r hr => ha r ((mem_regsUpTo x r).mp hr)

/-- Settles O32: the load reads the memory and the index it leaves as they are, and LD F, V0 points it at the glyph. -/
theorem registersAreLoaded : Obligations.RegistersAreLoaded := by
  refine ⟨fun x s => ?loaded, fun s _ => ?glyph⟩
  case loaded =>
    refine ⟨_, exec_ldVxMem x s, fun r => ?regs, State.loadRegs_readByte s _, State.loadRegs_I .., rfl⟩
    case regs =>
      rw [State.setOutcome_reg, State.loadRegs_reg]
      simp only [mem_regsUpTo, State.readByte, resolve, Config.memSize, State.ea]
  case glyph =>
    refine ⟨_, _, exec_ldF 0 s, exec_ldVxMem 0 _, ?_⟩
    rw [State.setOutcome_reg, State.loadRegs_reg_zero, State.setOutcome_readByte, State.setOutcome_I,
      State.setI_readByte, State.setI_I, glyphAddress_toNat]

end Sys2Proof.Machine
end

section
/-! PROOFS. Decoding and encoding against each other (30_encoding.md R72 to R80): decode after encode, encode after decode,
the rows of the opcode map, and the illegal words. -/

namespace Sys2Proof

open Machine (isShift isSys)

/-! ### Decoding what was encoded -/

/-- A SYS word that spells neither CLS nor RET decodes to SYS (R75, R80). -/
theorem decode_sys (nnn : Addr12) (h : wellFormed (.sys nnn) = true) :
    decode (encode (.sys nnn)) = .instr (.sys nnn) := by
  obtain ⟨ha, hn⟩ := fields_encA 0 nnn
  obtain ⟨hcls, hret⟩ : nnn ≠ 0x0E0#12 ∧ nnn ≠ 0x0EE#12 := by simpa [wellFormed] using h
  have hcls' : encA 0 nnn ≠ 0x00E0#16 := fun e => hcls (by rw [← hn, e]; rfl)
  have hret' : encA 0 nnn ≠ 0x00EE#16 := fun e => hret (by rw [← hn, e]; rfl)
  simp [encode, decode, decode0, ha, hn, hcls', hret']

/-- The decoder reads every field back from where the instruction's format puts it (R72, R73, R75). -/
theorem decode_encode (i : Instr) (h : wellFormed i = true) : decode (encode i) = .instr i := by
  cases i
  case cls | ret => rfl
  case sys nnn => exact decode_sys nnn h
  case jp | call | ldI | jpV0 => simp [encode, decode, fields_encA]
  case seImm | sneImm | ldImm | addImm | rnd => simp [encode, decode, fields_encXK]
  case drw => simp [encode, decode, fields_encXY]
  case seReg => simp [encode, decode, decode5, fields_encXY]
  case sneReg => simp [encode, decode, decode9, fields_encXY]
  case skp | sknp => simp [encode, decode, decodeE, fields_encXK]
  case shr x => exact decode_shr x 0
  case shl x => exact decode_shl x 0
  case ldReg | orReg | andReg | xorReg | addReg | sub | subn => simp [encode, decode, decode8, fields_encXY]
  case ldVxDT | ldVxK | ldDTVx | ldSTVx | addI | ldF | ldB | ldMemVx | ldVxMem =>
    simp [encode, decode, decodeF, fields_encXK]

/-- The bytes of a word decode as the word (R70, 20_memory.md R54). -/
theorem decodeBytes_encodeBytes (i : Instr) : decodeBytes (encodeBytes i) = decode (encode i) := by
  rw [encodeBytes, decodeBytes_cons, wordOfBytes_split]

/-! ### Encoding what was decoded, the shifts included -/

variable {w : Word} {i : Instr}

/-- A shift comes from family 8 alone (R75). -/
theorem decode8_of_shift (h : decode w = .instr i) (hs : isShift i = true) :
    fieldA w = 0x8 ∧ decode8 w = .instr i := by
  unfold decode decode0 decode5 decode9 decodeE decodeF at h
  split at h
  case h_9 ha => exact ⟨Fin.ext ha, h⟩
  -- The families that test a further field, then those that do not: none of them gives a shift.
  case h_1 | h_6 | h_10 | h_15 | h_16 => split_ifs at h <;> cases h <;> cases hs
  all_goals cases h; cases hs

/-- A word with its `y` cleared (R78 (b), R80). -/
theorem and_FF0F (w : Word) : w &&& 0xFF0F#16 = encXY (fieldA w) (fieldX w) 0 (fieldN w) := by
  refine BitVec.eq_of_getLsbD_eq fun k hk => ?_
  simp only [getLsbD_encXY, fieldA, fieldX, fieldN, nibBits_toFin, BitVec.getLsbD_extractLsb', BitVec.getLsbD_and]
  interval_cases k <;> simp [nibBits]

/-- A word that decodes to a shift is the word of that shift but for `y` (R78 (b)). -/
theorem encode_of_decode_shift (h : decode w = .instr i) (hs : isShift i = true) : encode i = w &&& 0xFF0F#16 := by
  obtain ⟨ha, h8⟩ := decode8_of_shift h hs
  unfold decode8 at h8
  split at h8 <;> cases h8
  case h_7 hd => rw [and_FF0F, ha, show fieldN w = 0x6 from Fin.ext hd]; rfl
  case h_9 hd => rw [and_FF0F, ha, show fieldN w = 0xE from Fin.ext hd]; rfl
  all_goals cases hs

/-- SYS with the address of CLS or of RET is no decoder's answer: the two exact words come first (R75, R76). -/
theorem sys_ne_of_decode {nnn : Addr12} (h : decode w = .instr (.sys nnn)) : w ≠ 0x00E0#16 ∧ w ≠ 0x00EE#16 := by
  constructor <;> rintro rfl
  · cases (show decode 0x00E0#16 = .instr .cls from rfl).symm.trans h
  · cases (show decode 0x00EE#16 = .instr .ret from rfl).symm.trans h

theorem wellFormed_of_decode (h : decode w = .instr i) : wellFormed i = true := by
  cases i
  case sys nnn =>
    obtain ⟨hcls, hret⟩ := sys_ne_of_decode h
    rw [← encode_of_decode h rfl] at hcls hret
    have : nnn ≠ 0x0E0#12 ∧ nnn ≠ 0x0EE#12 := ⟨fun e => hcls (by rw [e]; rfl), fun e => hret (by rw [e]; rfl)⟩
    simpa [wellFormed] using this
  all_goals rfl

/-! ### The rows of the opcode map -/

section Rows
variable {a d : Nib} {kk : Byte}

/-- The match of a row of formats A, XK and XYN fixes the family (R76). -/
theorem and_F000_eq (h : w &&& 0xF000#16 = encA a 0) : fieldA w = a := by
  rw [and_F000] at h
  rw [← (fields_encA (fieldA w) 0).1, h, (fields_encA a 0).1]

/-- The match of a row of format XY fixes the family and the low nibble (R76). -/
theorem and_F00F_eq (h : w &&& 0xF00F#16 = encXY a 0 0 d) : fieldA w = a ∧ fieldN w = d := by
  rw [and_F00F] at h
  obtain ⟨ha, -, -, hd⟩ := fields_encXY (fieldA w) 0 0 (fieldN w)
  rw [h] at ha hd
  obtain ⟨ha', -, -, hd'⟩ := fields_encXY a 0 0 d
  exact ⟨ha.symm.trans ha', hd.symm.trans hd'⟩

/-- The match of a row of format XF fixes the family and the low byte (R76). -/
theorem and_F0FF_eq (h : w &&& 0xF0FF#16 = encXK a 0 kk) : fieldA w = a ∧ fieldKK w = kk := by
  rw [and_F0FF] at h
  obtain ⟨ha, -, hk⟩ := fields_encXK (fieldA w) 0 (fieldKK w)
  rw [h] at ha hk
  obtain ⟨ha', -, hk'⟩ := fields_encXK a 0 kk
  exact ⟨ha.symm.trans ha', hk.symm.trans hk'⟩

end Rows

/-- A word of a row of format XY is its two registers between the fixed nibbles (R73). -/
theorem encXY_of_row {a d : Nib} (h : fieldA w = a ∧ fieldN w = d) : encXY a (fieldX w) (fieldY w) d = w :=
  encXY_of_lowNibble h.1 h.2

/-- A word of a row of format XF is its register between the fixed nibble and byte (R73). -/
theorem encXK_of_row {a : Nib} {kk : Byte} (h : fieldA w = a ∧ fieldKK w = kk) : encXK a (fieldX w) kk = w :=
  encXK_of_lowByte h.1 h.2

/-- The encoded word carries its row's fixed bits (R76): the rows of Laws/PerInstr.lean together. -/
theorem encode_and_mask (i : Instr) : encode i &&& (maskMatch i).1 = (maskMatch i).2 := by
  cases i
  exacts [Laws.RowMatch.cls, Laws.RowMatch.ret, Laws.RowMatch.sys _, Laws.RowMatch.jp _, Laws.RowMatch.call _,
    Laws.RowMatch.seImm _ _, Laws.RowMatch.sneImm _ _, Laws.RowMatch.seReg _ _, Laws.RowMatch.ldImm _ _,
    Laws.RowMatch.addImm _ _, Laws.RowMatch.ldReg _ _, Laws.RowMatch.orReg _ _, Laws.RowMatch.andReg _ _,
    Laws.RowMatch.xorReg _ _, Laws.RowMatch.addReg _ _, Laws.RowMatch.sub _ _, Laws.RowMatch.shr _,
    Laws.RowMatch.subn _ _, Laws.RowMatch.shl _, Laws.RowMatch.sneReg _ _, Laws.RowMatch.ldI _,
    Laws.RowMatch.jpV0 _, Laws.RowMatch.rnd _ _, Laws.RowMatch.drw _ _ _, Laws.RowMatch.skp _,
    Laws.RowMatch.sknp _, Laws.RowMatch.ldVxDT _, Laws.RowMatch.ldVxK _, Laws.RowMatch.ldDTVx _,
    Laws.RowMatch.ldSTVx _, Laws.RowMatch.addI _, Laws.RowMatch.ldF _, Laws.RowMatch.ldB _,
    Laws.RowMatch.ldMemVx _, Laws.RowMatch.ldVxMem _]

/-- The `y` that a shift loses is no bit of its row's mask. -/
theorem mask_of_shift (hs : isShift i = true) : 0xFF0F#16 &&& (maskMatch i).1 = (maskMatch i).1 := by
  cases i
  case shr | shl => exact (by decide : 0xFF0F#16 &&& 0xF00F#16 = 0xF00F#16)
  all_goals cases hs

/-- A decoded word carries its row's fixed bits (R76). -/
theorem and_mask_of_decode (h : decode w = .instr i) : w &&& (maskMatch i).1 = (maskMatch i).2 := by
  rw [← encode_and_mask i]
  cases hs : isShift i
  case false => rw [encode_of_decode h hs]
  case true => rw [encode_of_decode_shift h hs, BitVec.and_assoc, mask_of_shift hs]

/-- The decoder answers with an instruction that encodes to the word. -/
theorem decode_of_encode_eq (h : encode i = w) (hwf : wellFormed i = true) : decode w = .instr i :=
  h ▸ decode_encode i hwf

/-- A row's fixed bits decode to an instruction of that row: the one whose operands are the fields of the word
(R75, R76). -/
theorem decode_of_and_mask (j : Instr) (h : w &&& (maskMatch j).1 = (maskMatch j).2)
    (hsys : isSys j = true → w ≠ 0x00E0#16 ∧ w ≠ 0x00EE#16) :
    ∃ i, decode w = .instr i ∧ maskMatch i = maskMatch j := by
  cases j
  case cls => exact ⟨.cls, decode_of_encode_eq (h.symm.trans BitVec.and_allOnes) rfl, rfl⟩
  case ret => exact ⟨.ret, decode_of_encode_eq (h.symm.trans BitVec.and_allOnes) rfl, rfl⟩
  case sys =>
    obtain ⟨hcls, hret⟩ := hsys rfl
    exact ⟨.sys (fieldNNN w), by simp [decode, decode0, and_F000_eq (a := 0x0) h, hcls, hret], rfl⟩
  case jp => exact ⟨.jp _, decode_of_encode_eq (encA_of_family (and_F000_eq h)) rfl, rfl⟩
  case call => exact ⟨.call _, decode_of_encode_eq (encA_of_family (and_F000_eq h)) rfl, rfl⟩
  case ldI => exact ⟨.ldI _, decode_of_encode_eq (encA_of_family (and_F000_eq h)) rfl, rfl⟩
  case jpV0 => exact ⟨.jpV0 _, decode_of_encode_eq (encA_of_family (and_F000_eq h)) rfl, rfl⟩
  case seImm => exact ⟨.seImm _ _, decode_of_encode_eq (encXK_of_family (and_F000_eq h)) rfl, rfl⟩
  case sneImm => exact ⟨.sneImm _ _, decode_of_encode_eq (encXK_of_family (and_F000_eq h)) rfl, rfl⟩
  case ldImm => exact ⟨.ldImm _ _, decode_of_encode_eq (encXK_of_family (and_F000_eq h)) rfl, rfl⟩
  case addImm => exact ⟨.addImm _ _, decode_of_encode_eq (encXK_of_family (and_F000_eq h)) rfl, rfl⟩
  case rnd => exact ⟨.rnd _ _, decode_of_encode_eq (encXK_of_family (and_F000_eq h)) rfl, rfl⟩
  case drw => exact ⟨.drw _ _ _, decode_of_encode_eq (encXY_of_family (and_F000_eq h)) rfl, rfl⟩
  case seReg => exact ⟨.seReg _ _, decode_of_encode_eq (encXY_of_row (and_F00F_eq h)) rfl, rfl⟩
  case ldReg => exact ⟨.ldReg _ _, decode_of_encode_eq (encXY_of_row (and_F00F_eq h)) rfl, rfl⟩
  case orReg => exact ⟨.orReg _ _, decode_of_encode_eq (encXY_of_row (and_F00F_eq h)) rfl, rfl⟩
  case andReg => exact ⟨.andReg _ _, decode_of_encode_eq (encXY_of_row (and_F00F_eq h)) rfl, rfl⟩
  case xorReg => exact ⟨.xorReg _ _, decode_of_encode_eq (encXY_of_row (and_F00F_eq h)) rfl, rfl⟩
  case addReg => exact ⟨.addReg _ _, decode_of_encode_eq (encXY_of_row (and_F00F_eq h)) rfl, rfl⟩
  case sub => exact ⟨.sub _ _, decode_of_encode_eq (encXY_of_row (and_F00F_eq h)) rfl, rfl⟩
  case subn => exact ⟨.subn _ _, decode_of_encode_eq (encXY_of_row (and_F00F_eq h)) rfl, rfl⟩
  case sneReg => exact ⟨.sneReg _ _, decode_of_encode_eq (encXY_of_row (and_F00F_eq h)) rfl, rfl⟩
  case shr => exact ⟨.shr (fieldX w), by simp [decode, decode8, and_F00F_eq (a := 0x8) (d := 0x6) h], rfl⟩
  case shl => exact ⟨.shl (fieldX w), by simp [decode, decode8, and_F00F_eq (a := 0x8) (d := 0xE) h], rfl⟩
  case skp => exact ⟨.skp _, decode_of_encode_eq (encXK_of_row (and_F0FF_eq h)) rfl, rfl⟩
  case sknp => exact ⟨.sknp _, decode_of_encode_eq (encXK_of_row (and_F0FF_eq h)) rfl, rfl⟩
  case ldVxDT => exact ⟨.ldVxDT _, decode_of_encode_eq (encXK_of_row (and_F0FF_eq h)) rfl, rfl⟩
  case ldVxK => exact ⟨.ldVxK _, decode_of_encode_eq (encXK_of_row (and_F0FF_eq h)) rfl, rfl⟩
  case ldDTVx => exact ⟨.ldDTVx _, decode_of_encode_eq (encXK_of_row (and_F0FF_eq h)) rfl, rfl⟩
  case ldSTVx => exact ⟨.ldSTVx _, decode_of_encode_eq (encXK_of_row (and_F0FF_eq h)) rfl, rfl⟩
  case addI => exact ⟨.addI _, decode_of_encode_eq (encXK_of_row (and_F0FF_eq h)) rfl, rfl⟩
  case ldF => exact ⟨.ldF _, decode_of_encode_eq (encXK_of_row (and_F0FF_eq h)) rfl, rfl⟩
  case ldB => exact ⟨.ldB _, decode_of_encode_eq (encXK_of_row (and_F0FF_eq h)) rfl, rfl⟩
  case ldMemVx => exact ⟨.ldMemVx _, decode_of_encode_eq (encXK_of_row (and_F0FF_eq h)) rfl, rfl⟩
  case ldVxMem => exact ⟨.ldVxMem _, decode_of_encode_eq (encXK_of_row (and_F0FF_eq h)) rfl, rfl⟩

/-- Only SYS stands in the row of SYS (R76). -/
theorem sys_of_maskMatch {j : Instr} (hj : isSys j = true) (h : maskMatch i = maskMatch j) : ∃ nnn, i = .sys nnn := by
  cases j
  case sys =>
    cases i
    case sys nnn => exact ⟨nnn, rfl⟩
    all_goals exact absurd h (by simp [maskMatch])
  all_goals cases hj

/-! ### The illegal words, family by family -/

theorem decode5_illegal : (∃ why, decode5 w = .illegal why) ↔ fieldN w ≠ 0 := by
  unfold decode5
  split_ifs with hd <;> simp [hd]

theorem decode8_illegal :
    (∃ why, decode8 w = .illegal why) ↔ fieldN w ∈ [0x8, 0x9, 0xA, 0xB, 0xC, 0xD, 0xF] := by
  unfold decode8
  generalize fieldN w = d
  fin_cases d <;> simp

theorem decode9_illegal : (∃ why, decode9 w = .illegal why) ↔ fieldN w ≠ 0 := by
  unfold decode9
  split_ifs with hd <;> simp [hd]

theorem decodeE_illegal : (∃ why, decodeE w = .illegal why) ↔ fieldKK w ∉ [0x9E#8, 0xA1#8] := by
  unfold decodeE
  split_ifs with hk hk <;> simp [*]

theorem decodeF_illegal :
    (∃ why, decodeF w = .illegal why) ↔
      fieldKK w ∉ [0x07#8, 0x0A#8, 0x15#8, 0x18#8, 0x1E#8, 0x29#8, 0x33#8, 0x55#8, 0x65#8] := by
  unfold decodeF
  split_ifs with hk hk hk hk hk hk hk hk hk <;> simp [*]

theorem decode0_legal (why : Reject) : decode0 w ≠ .illegal why := by
  unfold decode0
  split_ifs <;> exact nofun

/-! ### The statements -/

/-- Settles O1: the word decodes by its format's fields, and the bytes as the word. -/
theorem decodeOfEncodeIsTheInstruction : Obligations.DecodeOfEncodeIsTheInstruction := fun i h =>
  ⟨decode_encode i h, (decodeBytes_encodeBytes i).trans (decode_encode i h)⟩

/-- Settles O2: every field but the `y` of a shift is kept by the instruction. -/
theorem encodeOfDecodeIsTheWord : Obligations.EncodeOfDecodeIsTheWord := by
  refine fun w i h => ⟨wellFormed_of_decode h, ?_⟩
  cases hs : isShift i
  case false => exact encode_of_decode h hs
  case true => exact encode_of_decode_shift h hs

/-- Settles O3: the fixed bits of a row determine its instruction up to operands, and the row of SYS stands apart from
the two exact words because those are decoded first. -/
theorem decodeFollowsTheOpcodeMap : Obligations.DecodeFollowsTheOpcodeMap := by
  refine fun w j => ⟨fun ⟨hrow, hsys⟩ => decode_of_and_mask j hrow hsys, ?_⟩
  rintro ⟨i, hi, hrow⟩
  refine ⟨hrow ▸ and_mask_of_decode hi, fun hj => ?_⟩
  obtain ⟨nnn, rfl⟩ := sys_of_maskMatch hj hrow
  exact sys_ne_of_decode hi

/-- Settles O4: each family has its own illegal words, and eleven families have none. -/
theorem illegalWordsAreTheTable : Obligations.IllegalWordsAreTheTable := by
  intro w
  obtain ⟨a, ha⟩ : ∃ a, fieldA w = a := ⟨_, rfl⟩
  fin_cases a <;>
    simp [decode, ha, decode0_legal, decode5_illegal, decode8_illegal, decode9_illegal, decodeE_illegal, decodeF_illegal]

/-- Settles O6: by evaluation of the decoder on the sixteen words. -/
theorem specWordsDecode : Obligations.SpecWordsDecode := by
  unfold Obligations.SpecWordsDecode
  decide

end Sys2Proof
end

section
/-! PROOFS. What an instruction can do, said once: the remaining operations in equations, and the inversion of `exec` from
which every frame, fault and invariant follows (10_state.md R20 to R31, 40_control_flow.md R110). -/

namespace Sys2Proof.Machine

/-! ### The remaining operations in equations -/

/-- What a draw makes of the framebuffer, with its collision (43_display.md R154). -/
def State.drawn (s : State) (x y n : Nib) : Screen × Bool :=
  writeSprite s.res s.FB (s.reg x).toNat (s.reg y).toNat (s.spriteBytes n.val)

section Exec
variable (x y n : Nib) (kk : Byte) (nnn : Addr12) (s : State)

/-- CLS (43_display.md R153). -/
theorem exec_cls : exec .cls s = (s.setFB []).finish false := rfl

/-- SE of two registers skips on equality (40_control_flow.md R107). -/
theorem exec_seReg : exec (.seReg x y) s = (s.skipIf (s.reg x == s.reg y)).finish false := rfl

/-- SNE of two registers skips on inequality (40_control_flow.md R108). -/
theorem exec_sneReg : exec (.sneReg x y) s = (s.skipIf (s.reg x != s.reg y)).finish false := rfl

/-- JP V0 (40_control_flow.md R109). -/
theorem exec_jpV0 : exec (.jpV0 nnn) s = (s.setPc (extAddr nnn + extByte (s.reg 0))).finish false := rfl

/-- RND (41_alu.md R132). -/
theorem exec_rnd :
    exec (.rnd x kk) s = ((s.setReg x (s.randomDraw &&& kk)).setDraws (s.draws + 1)).finish false := rfl

/-- DRW: the screen drawn on, then the collision in VF (43_display.md R154). -/
theorem exec_drw :
    exec (.drw x y n) s =
      ((s.setFB (s.drawn x y n).1).setReg VF (flagByte (s.drawn x y n).2)).finish true := rfl

/-- ADD I, Vx (42_index_memory.md R141). -/
theorem exec_addI : exec (.addI x) s = (s.setI (s.I + extByte (s.reg x))).finish false := rfl

/-- LD Vx, DT (44_keypad_timers.md R164). -/
theorem exec_ldVxDT : exec (.ldVxDT x) s = (s.setReg x s.DT).finish false := rfl

/-- LD DT, Vx (44_keypad_timers.md R165). -/
theorem exec_ldDTVx : exec (.ldDTVx x) s = (s.setDT (s.reg x)).finish false := rfl

/-- LD ST, Vx (44_keypad_timers.md R166). -/
theorem exec_ldSTVx : exec (.ldSTVx x) s = (s.setST (s.reg x)).finish false := rfl

end Exec

/-- The target of the indexed jump is not reduced to 12 bits (40_control_flow.md R109). -/
theorem indexedTarget_toNat (nnn : Addr12) (b : Byte) : (extAddr nnn + extByte b).toNat = nnn.toNat + b.toNat := by
  have hn := nnn.isLt
  have hb := b.isLt
  rw [BitVec.toNat_add, extAddr_toNat, extByte_toNat]
  omega

/-! ### What an instruction may do -/

/-- The instructions that make a draw request (10_state.md R33). -/
def isDraw : Instr → Bool
  | .drw _ _ _ => true
  | _ => false

/-- Where an instruction may take `pc` (40_control_flow.md R110). -/
def Transfers (i : Instr) (s : State) (w : Word) : Prop :=
  w = s.pc ∨ (isSkip i = true ∧ w = s.pc + 2#16) ∨
    (∃ nnn : Addr12, (i = .jp nnn ∨ i = .call nnn) ∧ w.toNat = nnn.toNat) ∨
    (∃ nnn : Addr12, i = .jpV0 nnn ∧ w.toNat = nnn.toNat + (s.reg 0).toNat) ∨
    (i = .ret ∧ ∃ k : Nib, k.val = s.sp.toNat ∧ w = s.slot k)

/-- The state a completed cycle leaves, before its outcome is recorded: one constructor per part of the state that
instructions write, with what is known of the value written. A part that a constructor does not name is as before. -/
inductive Effect (s : State) : Instr → State → Prop
  /-- General registers alone, and only destinations (10_state.md R20, R21). -/
  | regs {i : Instr} {V : Vector Byte 16} (hV : KeepsRegsBut (destRegs i) s { s with V := V }) :
      Effect s i { s with V := V }
  /-- A register and the count of random bytes (10_state.md R32). -/
  | random {x : Nib} {kk : Byte} {V : Vector Byte 16} {d : Nat} (hV : KeepsRegsBut [x] s { s with V := V }) :
      Effect s (.rnd x kk) { s with V := V, draws := d }
  /-- The index register (10_state.md R22). -/
  | index {i : Instr} {w : Word} (hi : writesI i = true) : Effect s i { s with I := w }
  /-- The program counter (10_state.md R23). -/
  | jump {i : Instr} {w : Word} (hpc : Transfers i s w) : Effect s i { s with pc := w }
  /-- The program counter and the stack, where slot 0 stays and `sp` is legal (10_state.md R24, R25). -/
  | stack {i : Instr} {w : Word} {b : Byte} {st : Vector Word 16} (hi : usesStack i = true) (hpc : Transfers i s w)
      (hsp : b.toNat ≤ 15) (h0 : State.slot { s with stack := st } 0 = s.slot 0) :
      Effect s i { s with pc := w, sp := b, stack := st }
  /-- The memory at the addresses stored to, in canonical form (20_memory.md R61). -/
  | store {i : Instr} {m : Memory} (hwf : Memory.wf s.mem = true → Memory.wf m = true)
      (hm : ∀ a, (∀ b ∈ storeAddrs i s, resolve a ≠ resolve b) → (s.setMem m).readByte a = s.readByte a) :
      Effect s i (s.setMem m)
  /-- The framebuffer, in canonical form, and the collision flag (10_state.md R28). -/
  | screen {i : Instr} {f : Screen} {V : Vector Byte 16} (hi : writesScreen i = true)
      (hwf : Screen.wf s.res s.FB = true → Screen.wf s.res f = true)
      (hV : KeepsRegsBut (destRegs i) s { s with V := V }) : Effect s i { s with FB := f, V := V }
  /-- The delay timer (10_state.md R26). -/
  | delay {x : Nib} {b : Byte} : Effect s (.ldDTVx x) { s with DT := b }
  /-- The sound timer (10_state.md R27). -/
  | sound {x : Nib} {b : Byte} : Effect s (.ldSTVx x) { s with ST := b }

/-- The one condition on which an instruction raises a fault, and the fault (60_exceptions.md R178). -/
def Raises (i : Instr) (s : State) (kind : FaultKind) : Prop :=
  (kind = .stackOverflow ∧ (∃ nnn, i = .call nnn) ∧ s.sp = 15#8) ∨
    (kind = .stackUnderflow ∧ i = .ret ∧ s.sp = 0#8) ∨
    (kind = .keyIndexOutOfRange ∧ ∃ x, (i = .skp x ∨ i = .sknp x) ∧ 15 < (s.reg x).toNat)

/-- What the Operation of an instruction answers: it completes, waits for a key, takes a fault, or finds no stack slot. -/
inductive Answer (i : Instr) (s : State) : Result → Prop
  | completes {t : State} (h : Effect s i t) : Answer i s (t.finish (isDraw i))
  | waits {x : Nib} (h : i = .ldVxK x) : Answer i s (s.setPhase (.waitKey x)).wait
  | raises {kind : FaultKind} (h : Raises i s kind) : Answer i s (s.raise kind (encode i))
  | noSlot (h : 15 < s.sp.toNat) : Answer i s (.fault .noStackSlot)

/-! ### The kinds of effect -/

section Kinds
variable {i : Instr} {s : State} {x y : Nib} {b : Byte} {c : Bool}

/-- Writing a destination register is an effect. -/
theorem effect_setReg (hx : x ∈ destRegs i) : Effect s i (s.setReg x b) :=
  .regs fun r hr => (s.setReg_reg x r b).trans (if_neg fun e : r = x => hr (e ▸ hx))

/-- The two writes of a flag-writing instruction are an effect (41_alu.md R120). -/
theorem effect_writeFlagged (hx : [x, VF] = destRegs i) : Effect s i (s.writeFlagged x c b) :=
  .regs (hx ▸ keepsRegsBut_writeFlagged (o := s.outcome))

/-- Loading V0 to Vx is an effect (42_index_memory.md R145). -/
theorem effect_loadRegs : Effect s (.ldVxMem x) (s.loadRegs (regsUpTo x)) := by
  rw [State.loadRegs_frame]
  refine .regs fun r hr => ?_
  rw [← State.loadRegs_frame, State.loadRegs_reg]
  exact if_neg hr

/-- A conditional skip is an effect, taken or not (40_control_flow.md R110). -/
theorem effect_skipIf (hi : isSkip i = true) : Effect s i (s.skipIf c) := by
  cases c
  case false => exact .jump (.inl rfl)
  case true => exact .jump (.inr (.inl ⟨hi, rfl⟩))

/-- Storing V0 to Vx is an effect (42_index_memory.md R144). -/
theorem effect_storeRegs : Effect s (.ldMemVx x) (s.storeRegs (regsUpTo x)) := by
  rw [State.storeRegs_frame]
  refine .store (State.wf_storeRegs s _) fun a ha => ?_
  rw [← State.storeRegs_frame]
  exact State.storeRegs_readByte_other s _ a fun r hr => ha _ (List.mem_map_of_mem hr)

/-- Storing the three digits is an effect (42_index_memory.md R143). -/
theorem effect_writeDigits : Effect s (.ldB x) (s.writeBytes (s.ea 0) (decimalDigits b)) := by
  rw [State.writeBytes_frame]
  refine .store (State.wf_writeBytes s _ _) fun a ha => ?_
  rw [← State.writeBytes_frame]
  refine State.writeBytes_readByte_other s _ a _ fun j (hj : j < 3) => ha _ ?_
  interval_cases j <;> simp [storeAddrs, State.ea]

/-- A draw is an effect (43_display.md R154). -/
theorem effect_draw {n : Nib} :
    Effect s (.drw x y n) ((s.setFB (s.drawn x y n).1).setReg VF (flagByte (s.drawn x y n).2)) :=
  .screen rfl (writeSprite_wf _ _ _ _ _) (keepsRegsBut_setReg (o := s.outcome))

end Kinds

/-! ### The inversion -/

theorem answer_ret (s : State) : Answer .ret s (exec .ret s) := by
  rcases execRet_cases s with ⟨h0, h⟩ | ⟨k, h0, hk, h⟩ | ⟨hsp, h⟩ <;> rw [show exec .ret s = _ from h]
  · exact .raises (.inr (.inl ⟨rfl, rfl, h0⟩))
  · refine .completes (.stack rfl (.inr (.inr (.inr (.inr ⟨rfl, k, hk.symm, rfl⟩)))) ?_ rfl)
    rw [toNat_sub_one _ h0]
    omega
  · exact .noSlot hsp

theorem answer_call (nnn : Addr12) (s : State) : Answer (.call nnn) s (exec (.call nnn) s) := by
  rcases execCall_cases nnn s with ⟨h15, h⟩ | ⟨k, h15, hk, h⟩ | ⟨hsp, h⟩ <;> rw [show exec (.call nnn) s = _ from h]
  · exact .raises (.inl ⟨rfl, ⟨nnn, rfl⟩, h15⟩)
  · have hk0 : (0 : Nib) ≠ k := fun e => by simp [← e] at hk
    refine .completes (.stack rfl (.inr (.inr (.inl ⟨nnn, .inr rfl, extAddr_toNat nnn⟩))) ?_ ?_)
    · rw [State.setSlot_sp, State.setSp_sp, toNat_add_one _ (by omega)]
      omega
    · exact (s.setSlot_slot k 0 s.pc).trans (if_neg hk0)
  · exact .noSlot hsp

theorem answer_skp (x : Nib) (s : State) : Answer (.skp x) s (exec (.skp x) s) := by
  rcases execSkp_cases x s with ⟨hx, h⟩ | ⟨k, _, h⟩ <;> rw [show exec (.skp x) s = _ from h]
  · exact .raises (.inr (.inr ⟨rfl, x, .inl rfl, hx⟩))
  · exact .completes (effect_skipIf rfl)

theorem answer_sknp (x : Nib) (s : State) : Answer (.sknp x) s (exec (.sknp x) s) := by
  rcases execSknp_cases x s with ⟨hx, h⟩ | ⟨k, _, h⟩ <;> rw [show exec (.sknp x) s = _ from h]
  · exact .raises (.inr (.inr ⟨rfl, x, .inr rfl, hx⟩))
  · exact .completes (effect_skipIf rfl)

theorem answer_ldVxK (x : Nib) (s : State) : Answer (.ldVxK x) s (exec (.ldVxK x) s) := by
  rcases execLdVxK_cases x s with ⟨k, _, h⟩ | ⟨_, h⟩ <;> rw [show exec (.ldVxK x) s = _ from h]
  · exact .completes (effect_setReg (List.mem_singleton_self x))
  · exact .waits rfl

/-- What an instruction can do, from every state. -/
theorem answer_exec (i : Instr) (s : State) : Answer i s (exec i s) := by
  cases i
  case ret => exact answer_ret s
  case call nnn => exact answer_call nnn s
  case skp x => exact answer_skp x s
  case sknp x => exact answer_sknp x s
  case ldVxK x => exact answer_ldVxK x s
  case sys => exact .completes (.jump (.inl rfl))
  case jp nnn => exact .completes (.jump (.inr (.inr (.inl ⟨nnn, .inl rfl, extAddr_toNat nnn⟩))))
  case jpV0 nnn => exact .completes (.jump (.inr (.inr (.inr (.inl ⟨nnn, rfl, indexedTarget_toNat nnn _⟩)))))
  case seImm | sneImm | seReg | sneReg => exact .completes (effect_skipIf rfl)
  case ldImm | addImm | ldReg | orReg | andReg | xorReg | ldVxDT =>
    exact .completes (effect_setReg (List.mem_singleton_self _))
  case addReg | sub | shr | subn | shl => exact .completes (effect_writeFlagged rfl)
  case rnd => exact .completes (.random (keepsRegsBut_setReg (o := s.outcome)))
  case ldI | addI | ldF => exact .completes (.index rfl)
  case ldB => exact .completes effect_writeDigits
  case ldMemVx => exact .completes effect_storeRegs
  case ldVxMem => exact .completes effect_loadRegs
  case cls => exact .completes (.screen rfl (fun _ => rfl) fun _ _ => rfl)
  case drw => exact .completes effect_draw
  case ldDTVx => exact .completes .delay
  case ldSTVx => exact .completes .sound

/-- The next state of an instruction: its effect with the outcome recorded, the open wait, or the fault taken. -/
theorem exec_next_cases {i : Instr} {s t : State} (h : exec i s = .next t) :
    (∃ u, Effect s i u ∧ t = u.setOutcome (some (.completed (isDraw i)))) ∨
    (∃ x, i = .ldVxK x ∧ t = (s.setPhase (.waitKey x)).setOutcome (some .waiting)) ∨
    (∃ kind, Raises i s kind ∧
      t = (s.setPhase (.halted (s.record kind (encode i)))).setOutcome (some (.faulted (s.record kind (encode i))))) := by
  have ha := answer_exec i s
  rw [h] at ha
  generalize hr : Host.Outcome.next t = r at ha
  cases ha
  case completes u hu => exact .inl ⟨u, hu, by simpa using hr⟩
  case waits x hx => exact .inr (.inl ⟨x, hx, by simpa using hr⟩)
  case raises kind hk => exact .inr (.inr ⟨kind, hk, by simpa using hr⟩)
  case noSlot => cases hr

end Sys2Proof.Machine
end

section
/-! PROOFS. The frames over all instructions (10_state.md R20 to R33, 20_memory.md R61, 40_control_flow.md R110): what each
kind of effect leaves alone, and from it what every next state of `exec` leaves alone. -/

namespace Sys2Proof.Machine

/-! ### What an effect leaves alone -/

section Frames
variable {i : Instr} {s t : State} (h : Effect s i t)
include h

theorem Effect.keepsRegs : KeepsRegsBut (destRegs i) s t := by
  cases h
  case regs hV | random hV | screen hV => exact hV
  all_goals exact fun _ _ => rfl

theorem Effect.keepsInputs : KeepsInputs s t := by
  cases h <;> exact ⟨rfl, rfl, rfl, rfl, rfl⟩

theorem Effect.phase_eq : t.phase = s.phase := by cases h <;> rfl

theorem Effect.I_eq (hi : writesI i = false) : t.I = s.I := by
  cases h
  case index hi' => cases hi.symm.trans hi'
  all_goals rfl

theorem Effect.keepsStack (hi : usesStack i = false) : KeepsStack s t := by
  cases h
  case stack hi' _ => cases hi.symm.trans hi'
  all_goals exact ⟨rfl, fun _ => rfl⟩

theorem Effect.slot_zero : t.slot 0 = s.slot 0 := by
  cases h
  case stack h0 _ _ => exact h0
  all_goals rfl

theorem Effect.DT_eq : t.DT = s.DT ∨ ∃ x, i = .ldDTVx x := by
  cases h
  case delay x _ => exact .inr ⟨x, rfl⟩
  all_goals exact .inl rfl

theorem Effect.ST_eq : t.ST = s.ST ∨ ∃ x, i = .ldSTVx x := by
  cases h
  case sound x _ => exact .inr ⟨x, rfl⟩
  all_goals exact .inl rfl

theorem Effect.draws_eq : t.draws = s.draws ∨ ∃ x kk, i = .rnd x kk := by
  cases h
  case random x kk _ _ _ => exact .inr ⟨x, kk, rfl⟩
  all_goals exact .inl rfl

theorem Effect.readByte_other (a : Nat) (ha : ∀ b ∈ storeAddrs i s, resolve a ≠ resolve b) :
    t.readByte a = s.readByte a := by
  cases h
  case store hm => exact hm a ha
  all_goals rfl

theorem Effect.FB_eq (hi : writesScreen i = false) : t.FB = s.FB := by
  cases h
  case screen hi' _ => cases hi.symm.trans hi'
  all_goals rfl

theorem Effect.transfers : Transfers i s t.pc := by
  cases h
  case jump hpc | stack hpc => exact hpc
  all_goals exact .inl rfl

end Frames

/-! ### The statements -/

theorem isDraw_iff (i : Instr) : isDraw i = true ↔ ∃ x y n, i = .drw x y n := by
  cases i <;> simp [isDraw]

/-- Settles O38: a completed cycle records a draw request exactly for a draw, and a wait or a fault records none. -/
theorem onlyDrawRequestsARender : Obligations.OnlyDrawRequestsARender := by
  intro i s t h
  rw [← isDraw_iff]
  rcases exec_next_cases h with ⟨u, -, rfl⟩ | ⟨x, rfl, rfl⟩ | ⟨kind, hk, rfl⟩
  · simp
  · simp [isDraw]
  · have : isDraw i = false := by
      rcases hk with ⟨-, ⟨nnn, rfl⟩, -⟩ | ⟨-, rfl, -⟩ | ⟨-, x, rfl | rfl, -⟩ <;> rfl
    simp [this]

/-- Settles O45: an effect writes destinations only; a wait and a fault write no general register. -/
theorem onlyDestinationRegistersChange : Obligations.OnlyDestinationRegistersChange := by
  intro i s t h
  rcases exec_next_cases h with ⟨u, hu, rfl⟩ | ⟨x, -, rfl⟩ | ⟨kind, -, rfl⟩
  · exact hu.keepsRegs
  · exact fun _ _ => rfl
  · exact fun _ _ => rfl

/-- Settles O46: field by field for an effect; a wait and a fault change the phase alone. -/
theorem onlyNamedSpecialRegistersChange : Obligations.OnlyNamedSpecialRegistersChange := by
  intro i s t h
  rcases exec_next_cases h with ⟨u, hu, rfl⟩ | ⟨x, rfl, rfl⟩ | ⟨kind, -, rfl⟩
  · exact ⟨hu.keepsInputs, hu.I_eq, hu.keepsStack, hu.DT_eq, hu.ST_eq, hu.draws_eq, .inl hu.phase_eq⟩
  · exact ⟨⟨rfl, rfl, rfl, rfl, rfl⟩, fun _ => rfl, fun _ => ⟨rfl, fun _ => rfl⟩, .inl rfl, .inl rfl, .inl rfl,
      .inr (.inl ⟨x, rfl, rfl⟩)⟩
  · exact ⟨⟨rfl, rfl, rfl, rfl, rfl⟩, fun _ => rfl, fun _ => ⟨rfl, fun _ => rfl⟩, .inl rfl, .inl rfl, .inl rfl,
      .inr (.inr ⟨_, rfl⟩)⟩

/-- Settles O47: an effect stores to the named addresses only; a wait and a fault store nothing. -/
theorem onlyStoredBytesChange : Obligations.OnlyStoredBytesChange := by
  intro i s t h a ha
  rcases exec_next_cases h with ⟨u, hu, rfl⟩ | ⟨x, -, rfl⟩ | ⟨kind, -, rfl⟩
  · exact hu.readByte_other a ha
  · rfl
  · rfl

/-- Settles O48: outside CLS and DRW no effect writes the framebuffer, and none ever changes the resolution. -/
theorem onlyClearAndDrawChangeTheScreen : Obligations.OnlyClearAndDrawChangeTheScreen := by
  intro i s t h hi px py
  rcases exec_next_cases h with ⟨u, hu, rfl⟩ | ⟨x, -, rfl⟩ | ⟨kind, -, rfl⟩
  · obtain ⟨-, hres, -⟩ := hu.keepsInputs
    rw [State.setOutcome_pixel, State.pixel, State.pixel, hres, hu.FB_eq hi]
  · rfl
  · rfl

/-- Settles O49: an effect moves `pc` as listed; a wait and a fault keep the advanced value. -/
theorem controlTransfersAreTheListed : Obligations.ControlTransfersAreTheListed := by
  intro i s t h
  rcases exec_next_cases h with ⟨u, hu, rfl⟩ | ⟨x, -, rfl⟩ | ⟨kind, -, rfl⟩
  · exact hu.transfers
  · exact .inl rfl
  · exact .inl rfl

end Sys2Proof.Machine
end

section
/-! PROOFS. The steps of the agents in equations, and the faults: who raises one, what it records, and that only a reset
leaves HALTED (00_scope.md R11, 60_exceptions.md R170 to R179). -/

namespace Sys2Proof.Machine

/-! ### The steps of the agents -/

section Steps
variable {s : State} {rest : List AgentStep}

/-- An ENGINE step in READY on an illegal word takes `UnsupportedInstruction` (60_exceptions.md R171). -/
theorem step_of_illegal {why : Reject} (hnext : EngineNext s rest) (hready : s.phase = .ready)
    (hdec : decode s.fetchWord = .illegal why) :
    step s = (s.setSchedule rest).advance.raise .unsupportedInstruction s.fetchWord := by
  have hword : decode (s.setSchedule rest).fetchWord = .illegal why := hdec
  simp only [step_engine hnext, engineStep, State.setSchedule_phase, hready, cycle, State.decode_fetch, hword]
  rfl

/-- An ENGINE step in WAITKEY is a poll (44_keypad_timers.md R163). -/
theorem step_of_waitKey {x : Nib} (hnext : EngineNext s rest) (hwait : s.phase = .waitKey x) :
    step s = poll x (s.setSchedule rest) := by
  simp only [step_engine hnext, engineStep, State.setSchedule_phase, hwait]

/-- The ENGINE has no step in HALTED (60_exceptions.md R176). -/
theorem step_of_halted {f : FaultRecord} (hnext : EngineNext s rest) (hhalt : s.phase = .halted f) :
    step s = .fault (.halted f) := by
  simp only [step_engine hnext, engineStep, State.setSchedule_phase, hhalt]

/-- The step of the agent at the head of the schedule (00_scope.md R11). -/
theorem step_of_schedule {a : AgentStep} (h : s.schedule = a :: rest) : step s = agentStep a (s.setSchedule rest) := by
  simp only [step, nextStep, h]

end Steps

/-- A load that is taken: in READY, before the first cycle, the first since reset (70_reset_and_hazards.md R201). -/
theorem hostLoad_next {s t : State} {bytes : List Byte} (h : s.hostLoad bytes = .next t) :
    bytes.length ≤ Config.maxProgram ∧ s.phase = .ready ∧ s.cycled = false ∧ s.loaded = false ∧
      t = ((s.writeBytes Config.progBase bytes).setLoaded true).setOutcome none := by
  rcases s.hostLoad_cases bytes with ⟨hlen, hp, hc, hl, h'⟩ | ⟨-, h'⟩ | ⟨-, -, h'⟩ | ⟨-, -, -, -, h'⟩ <;>
    cases h'.symm.trans h
  exact ⟨hlen, hp, hc, hl, rfl⟩

/-! ### Faults -/

/-- No raiser of a fault has bits that its word does not determine. -/
theorem Raises.not_shift {i : Instr} {s : State} {kind : FaultKind} (h : Raises i s kind) : isShift i = false := by
  rcases h with ⟨-, ⟨nnn, rfl⟩, -⟩ | ⟨-, rfl, -⟩ | ⟨-, x, rfl | rfl, -⟩ <;> rfl

/-- An instruction that reaches HALTED took the fault whose raiser it is, and its record is that fault's. -/
theorem raises_of_halted {i : Instr} {s t : State} {f : FaultRecord} (hready : s.phase = .ready)
    (h : exec i s = .next t) (hf : t.phase = .halted f) :
    ∃ kind, Raises i s kind ∧ f = s.record kind (encode i) ∧
      t = (s.setPhase (.halted f)).setOutcome (some (.faulted f)) := by
  rcases exec_next_cases h with ⟨u, hu, rfl⟩ | ⟨x, -, rfl⟩ | ⟨kind, hk, rfl⟩
  · cases hready.symm.trans (hu.phase_eq.symm.trans hf)
  · cases hf
  · cases hf
    exact ⟨kind, hk, rfl, rfl⟩

/-- Below the end of the stack every instruction has a next state. -/
theorem exec_answers (i : Instr) {s : State} (hsp : s.sp.toNat ≤ 15) : ∃ t, exec i s = .next t := by
  have ha := answer_exec i s
  generalize exec i s = r at ha
  cases ha
  case noSlot h => omega
  all_goals exact ⟨_, rfl⟩

/-- Settles O8: the engine's equation, with the advanced state written out. -/
theorem stepRunsTheDecodedInstruction : Obligations.StepRunsTheDecodedInstruction :=
  fun _ _ _ hnext hready hdec => step_of_decode hnext hready hdec

/-- Settles O9: the fault's record is the fetched word and its address. -/
theorem illegalWordHalts : Obligations.IllegalWordHalts := by
  intro s rest why hnext hready hdec
  refine ⟨⟨.unsupportedInstruction, s.fetchWord, s.pc⟩, rfl, rfl, rfl, ?_⟩
  rw [step_of_illegal hnext hready hdec, State.raise_eq, State.record, State.advance_instrAddr]
  rfl

/-- Settles O50: the word of a raiser is the fetched one, because its encoding has no ignored bit. -/
theorem faultsArePrecise : Obligations.FaultsArePrecise := by
  intro s rest t f hnext hready hstep hf
  have haddr : (s.setSchedule rest).advance.instrAddr = s.pc := State.advance_instrAddr _
  cases hdec : decode s.fetchWord with
  | instr i =>
    obtain ⟨kind, hk, rfl, rfl⟩ := 
      raises_of_halted (s := (s.setSchedule rest).advance) hready (step_of_decode hnext hready hdec ▸ hstep) hf
    exact ⟨encode_of_decode hdec hk.not_shift, haddr, rfl⟩
  | illegal why =>
    rw [step_of_illegal hnext hready hdec, State.raise_eq] at hstep
    cases hstep
    cases hf
    exact ⟨rfl, haddr, rfl⟩

/-- Settles O51: only a fault leads from READY to HALTED, and each has one raiser and one condition. -/
theorem faultsHaveTheirRaisers : Obligations.FaultsHaveTheirRaisers := by
  intro i s t f hready h hf
  obtain ⟨kind, hk, rfl, -⟩ := raises_of_halted hready h hf
  exact hk

/-- Settles O52: of the steps from HALTED, a tick and a key change keep the phase, a load is refused, and the ENGINE's is
the stuck fault. -/
theorem onlyResetLeavesHalted : Obligations.OnlyResetLeavesHalted := by
  refine fun s f hhalt => ⟨fun rest hnext => step_of_halted hnext hhalt, fun t ht => ?_⟩
  rcases step_cases s with ⟨rest, hnext, -⟩ | ⟨rest, -, h⟩ | ⟨rest, -, h⟩ | ⟨rest, k, -, h⟩ | ⟨rest, hs, -⟩ |
    ⟨rest, bytes, -, h⟩
  · -- The ENGINE.
    cases (step_of_halted hnext hhalt).symm.trans ht
  · -- The delay timer's tick.
    cases h.symm.trans ht
    exact .inl hhalt
  · -- The sound timer's tick.
    cases h.symm.trans ht
    exact .inl hhalt
  · -- New keys.
    cases h.symm.trans ht
    exact .inl hhalt
  · -- Reset.
    exact .inr ⟨rest, hs⟩
  · -- Load.
    obtain ⟨-, hready, -⟩ := hostLoad_next (h.symm.trans ht)
    cases hhalt.symm.trans hready

/-- Settles O59: an instruction always answers below the end of the stack, an illegal word halts, and a poll answers with
or without a key. -/
theorem engineAlwaysAnswers : Obligations.EngineAlwaysAnswers := by
  intro s rest hsp hnext hrun
  cases hp : s.phase with
  | ready =>
    cases hdec : decode s.fetchWord with
    | instr i => rw [step_of_decode hnext hp hdec]; exact exec_answers i hsp
    | illegal why => exact ⟨_, step_of_illegal hnext hp hdec⟩
  | waitKey x =>
    rw [step_of_waitKey hnext hp]
    rcases poll_cases x (s.setSchedule rest) with ⟨k, -, h⟩ | ⟨-, h⟩ <;> exact ⟨_, h⟩
  | halted f => exact absurd hp (hrun f)

end Sys2Proof.Machine
end

section
/-! PROOFS. Reset, load and the invariant of every reachable state (70_reset_and_hazards.md R200 to R202, 10_state.md R24,
R25, 60_exceptions.md R177). -/

namespace Sys2Proof.Machine

/-! ### Reset and load -/

/-- An address past the glyph table reads as zero right after reset (20_memory.md R52). -/
theorem unlisted_above (a : Nat) (h : 0x050 ≤ a) : unlisted a = 0#8 := by
  have : glyphs.length ≤ a / 5 := by
    rw [show glyphs.length = 16 from rfl]
    omega
  rw [unlisted, List.getD_eq_default _ _ this]
  rfl

/-- The table's row of a digit lies at five times the digit (20_memory.md R53). -/
theorem unlisted_glyph (d r : Nat) (hr : r < 5) : unlisted (5 * d + r) = (glyphs.getD d []).getD r 0#8 := by
  rw [unlisted, show (5 * d + r) / 5 = d by omega, show (5 * d + r) % 5 = r by omega]; rfl

/-- Memory reads as its unlisted contents right after reset (20_memory.md R52). -/
theorem reset_readByte (a : Nat) (h : a < 4096) : State.reset.readByte a = unlisted a :=
  congrArg unlisted (Nat.mod_eq_of_lt h)

/-- The bytes of a digit's glyph after reset (20_memory.md R53). -/
theorem reset_readByte_glyph (d r : Nat) (hd : d < 16) (hr : r < 5) :
    State.reset.readByte (5 * d + r) = (glyphs.getD d []).getD r 0#8 := by
  rw [reset_readByte _ (by omega), unlisted_glyph d r hr]

/-- Settles O53: by evaluation, and memory by what an unlisted address reads as. -/
theorem resetLeavesTheStatedValues : Obligations.ResetLeavesTheStatedValues := by
  refine ⟨rfl, rfl, rfl, rfl, rfl, rfl, by decide, by decide, by decide, fun _ _ => rfl, fun a h0 h => ?zeros,
    fun d r => reset_readByte_glyph d r, rfl⟩
  case zeros => rw [reset_readByte a h, unlisted_above a h0]

/-- Settles O54: the reset agent's equation. -/
theorem resetStepDiscardsTheState : Obligations.ResetStepDiscardsTheState :=
  fun _ _ h => step_of_schedule h

/-- A program no longer than the limit ends below the top of memory, so no byte outside it is written (R201). -/
theorem readByte_load_other (s : State) (bytes : List Byte) (hlen : bytes.length ≤ 3584) (a : Nat) (ha : a < 4096)
    (hout : a < 0x200 ∨ 0x200 + bytes.length ≤ a) : (s.writeBytes Config.progBase bytes).readByte a = s.readByte a := by
  refine s.writeBytes_readByte_other _ a bytes fun i hi => ?_
  simp only [resolve, Config.memSize, Config.progBase]
  omega

/-- The load that is taken (70_reset_and_hazards.md R201). -/
theorem hostLoad_taken {s : State} {bytes : List Byte} (hlen : bytes.length ≤ 3584) (hp : s.phase = .ready)
    (hc : s.cycled = false) (hl : s.loaded = false) :
    s.hostLoad bytes = .next (((s.writeBytes Config.progBase bytes).setLoaded true).setOutcome none) :=
  (if_neg (Nat.not_lt.mpr hlen)).trans ((if_pos ⟨hp, hc⟩).trans (if_pos hl))

/-- Settles O55: the four cases of the load, and what writing its bytes changes. -/
theorem loadPlacesTheProgram : Obligations.LoadPlacesTheProgram := by
  intro s rest bytes hs
  have hstep : step s = (s.setSchedule rest).hostLoad bytes := step_of_schedule hs
  rw [hstep]
  refine ⟨fun hlen hp hc hl => ⟨_, hostLoad_taken hlen hp hc hl, fun i hi => ?bytes, fun a => ?others, ?frame⟩,
    fun hlong => if_pos hlong, fun hlen hlate => ?late, fun hlen hp hc hl => ?twice⟩
  case bytes => exact State.writeBytes_readByte _ _ i bytes (hlen.trans (by decide)) hi
  case others => exact readByte_load_other _ bytes hlen a
  case frame => rw [State.writeBytes_frame]; rfl
  case late =>
    have hno : ¬ (s.phase = .ready ∧ s.cycled = false) := fun ⟨hp, hc⟩ =>
      hlate.elim (fun hp' => hp' hp) fun hc' => Bool.false_ne_true (hc.symm.trans hc')
    exact (if_neg (Nat.not_lt.mpr hlen)).trans (if_neg hno)
  case twice =>
    have hno : ¬ s.loaded = false := fun hl' => Bool.false_ne_true (hl'.symm.trans hl)
    exact (if_neg (Nat.not_lt.mpr hlen)).trans ((if_pos ⟨hp, hc⟩).trans (if_neg hno))

/-- Settles O60: before the load memory is as at reset, and the load writes the program's addresses only. -/
theorem uncoveredBytesKeepTheirResetValue : Obligations.UncoveredBytesKeepTheirResetValue := by
  rintro s t rest bytes ⟨-, -, -, -, hmem, -⟩ hs hstep a ha hout
  rw [step_of_schedule hs] at hstep
  obtain ⟨hlen, -, hc, hl, rfl⟩ := hostLoad_next hstep
  calc ((s.setSchedule rest).writeBytes Config.progBase bytes).readByte a
      _ = s.readByte a := readByte_load_other _ bytes hlen a ha hout
      _ = State.reset.readByte a := congrArg (Memory.read · (resolve a)) (hmem hc hl)

/-! ### The invariant, operation by operation -/

section Invariant
variable {i : Instr} {s t : State}

/-- What the invariant says of the halted `pc` holds of every other phase. -/
theorem haltedPc_of_running (h : ∀ f, s.phase ≠ .halted f) : haltedPc s = true := by
  unfold haltedPc
  split
  · rfl
  · rfl
  · exact absurd ‹_› (h _)

theorem haltedPc_of_ready (h : s.phase = .ready) : haltedPc s = true :=
  haltedPc_of_running fun f => by simp [h]

theorem Effect.wf_mem (h : Effect s i t) (hs : Memory.wf s.mem = true) : Memory.wf t.mem = true := by
  cases h
  case store hwf _ => exact hwf hs
  all_goals exact hs

theorem Effect.wf_screen (h : Effect s i t) (hs : Screen.wf s.res s.FB = true) : Screen.wf t.res t.FB = true := by
  cases h
  case screen hwf _ _ => exact hwf hs
  all_goals exact hs

theorem Effect.sp_le (h : Effect s i t) (hs : s.sp.toNat ≤ 15) : t.sp.toNat ≤ 15 := by
  cases h
  case stack hsp _ _ _ => exact hsp
  all_goals exact hs

/-- A fault's record names the instruction two before the advanced `pc` (60_exceptions.md R177). -/
theorem stateInv_raise {kind : FaultKind} {w : Word} {o : Option EngineOutcome} (hs : StateInv s)
    (hc : s.cycled = true) : StateInv ((s.setPhase (.halted (s.record kind w))).setOutcome o) := by
  obtain ⟨hmem, hscreen, hsp, -, hload, -⟩ := hs
  exact ⟨hmem, hscreen, hsp, fun _ => hc, hload, beq_iff_eq.mpr s.instrAddr_add.symm⟩

/-- The Operation of an instruction keeps the invariant, in a cycle that has begun. -/
theorem stateInv_exec (hs : StateInv s) (hready : s.phase = .ready) (hc : s.cycled = true)
    (h : exec i s = .next t) : StateInv t := by
  rcases exec_next_cases h with ⟨u, hu, rfl⟩ | ⟨x, -, rfl⟩ | ⟨kind, -, rfl⟩
  · obtain ⟨hmem, hscreen, hsp, -⟩ := hs
    obtain ⟨-, -, hcu, -⟩ := hu.keepsInputs
    have hcu' : u.cycled = true := hcu.trans hc
    have hru : u.phase = .ready := hu.phase_eq.trans hready
    exact ⟨hu.wf_mem hmem, hu.wf_screen hscreen, hu.sp_le hsp, fun _ => hcu',
      fun hn => absurd (hn.symm.trans hcu') Bool.false_ne_true, haltedPc_of_ready hru⟩
  · obtain ⟨hmem, hscreen, hsp, -, hload, -⟩ := hs
    exact ⟨hmem, hscreen, hsp, fun _ => hc, hload, rfl⟩
  · exact stateInv_raise hs hc

/-- The advance before dispatch keeps the invariant in READY (40_control_flow.md R100). -/
theorem stateInv_advance (hs : StateInv s) (hready : s.phase = .ready) : StateInv s.advance := by
  obtain ⟨hmem, hscreen, hsp, -, -, -⟩ := hs
  exact ⟨hmem, hscreen, hsp, fun _ => rfl, fun hn => (Bool.false_ne_true hn.symm).elim, haltedPc_of_ready hready⟩

/-- A poll keeps the invariant, with a key or without (44_keypad_timers.md R163). -/
theorem stateInv_poll {x : Nib} (hs : StateInv s) (h : poll x s = .next t) : StateInv t := by
  rcases poll_cases x s with ⟨k, -, h'⟩ | ⟨-, h'⟩ <;> cases h'.symm.trans h
  · obtain ⟨hmem, hscreen, hsp, -, hload, -⟩ := hs
    exact ⟨hmem, hscreen, hsp, fun hn => absurd rfl hn, hload, rfl⟩
  · exact hs

/-- A load that is taken keeps the invariant (70_reset_and_hazards.md R201). -/
theorem stateInv_load {bytes : List Byte} (hs : StateInv s) (h : s.hostLoad bytes = .next t) : StateInv t := by
  obtain ⟨-, hready, -, -, rfl⟩ := hostLoad_next h
  obtain ⟨hmem, hscreen, hsp, -, -, -⟩ := hs
  rw [State.writeBytes_frame]
  exact ⟨State.wf_writeBytes s _ _ hmem, hscreen, hsp, fun hn => absurd hready hn,
    fun _ hl => (Bool.false_ne_true hl.symm).elim, haltedPc_of_ready hready⟩

/-- The reset state of either resolution meets the invariant (10_state.md R35). -/
theorem stateInv_hostReset (s : State) : StateInv s.hostReset :=
  ⟨rfl, rfl, Nat.zero_le _, fun hn => absurd rfl hn, fun _ _ => rfl, rfl⟩

end Invariant

/-- Settles O56: the reset state is what a reset step makes of itself. -/
theorem resetMeetsTheInvariant : Obligations.ResetMeetsTheInvariant := stateInv_hostReset State.reset

/-- Settles O57: a cycle advances and then runs the instruction or halts, a poll and the other agents' steps keep each
conjunct, and the schedule is in none of them. -/
theorem everyStepKeepsTheInvariant : Obligations.EveryStepKeepsTheInvariant := by
  intro s t hs hstep
  rcases step_cases s with ⟨rest, -, ⟨hready, i, -, h⟩ | ⟨hready, -, h⟩ | ⟨x, -, h⟩ | ⟨f, -, h⟩⟩ | ⟨rest, -, h⟩ |
    ⟨rest, -, h⟩ | ⟨rest, k, -, h⟩ | ⟨rest, -, h⟩ | ⟨rest, bytes, -, h⟩ <;> have h := h.symm.trans hstep
  · -- The ENGINE in READY, an instruction.
    exact stateInv_exec (stateInv_advance (s := s.setSchedule rest) hs hready) hready rfl h
  · -- The ENGINE in READY, an illegal word.
    cases h
    exact stateInv_raise (stateInv_advance (s := s.setSchedule rest) hs hready) rfl
  · -- The ENGINE in WAITKEY.
    exact stateInv_poll (s := s.setSchedule rest) hs h
  · -- The ENGINE in HALTED has no step.
    cases h
  · -- The delay timer's tick.
    cases h
    exact hs
  · -- The sound timer's tick.
    cases h
    exact hs
  · -- New keys.
    cases h
    exact hs
  · -- Reset.
    cases h
    exact stateInv_hostReset _
  · -- Load.
    exact stateInv_load (s := s.setSchedule rest) hs h

end Sys2Proof.Machine
end

section
/-! PROOFS. The single instructions: control flow (40_control_flow.md R101 to R109), the identities of the flags and the
random byte (41_alu.md R132, R134), transfers with memory (42_index_memory.md R141 to R145), keys and timers
(44_keypad_timers.md R160 to R167). -/

namespace Sys2Proof.Machine

/-! ### The stack -/

section Stack
variable {s : State} {k : Nib} {nnn : Addr12}

/-- RET with a return address outstanding (40_control_flow.md R102). -/
theorem exec_ret_of_slot (hk : s.sp.toNat = k.val) (h0 : k ≠ 0) :
    exec .ret s = ((s.setPc (s.slot k)).setSp (s.sp - 1#8)).finish false := by
  rcases execRet_cases s with ⟨hz, -⟩ | ⟨j, -, hj, h⟩ | ⟨hsp, -⟩
  · exact absurd (Fin.ext (hk.symm.trans (congrArg BitVec.toNat hz))) h0
  · rw [show k = j from Fin.ext (hk.symm.trans hj)]
    exact h
  · omega

/-- RET with none outstanding (60_exceptions.md R173). -/
theorem exec_ret_underflow (h : s.sp = 0#8) : exec .ret s = s.raise .stackUnderflow (encode .ret) := if_pos h

/-- CALL with a slot left (40_control_flow.md R104). -/
theorem exec_call_of_slot (hk : s.sp.toNat + 1 = k.val) :
    exec (.call nnn) s = (((s.setSp (s.sp + 1#8)).setSlot k s.pc).setPc (extAddr nnn)).finish false := by
  rcases execCall_cases nnn s with ⟨h15, -⟩ | ⟨j, -, hj, h⟩ | ⟨hsp, -⟩
  · have : s.sp.toNat = 15 := congrArg BitVec.toNat h15
    omega
  · rw [show k = j from Fin.ext (hk.symm.trans hj)]
    exact h
  · omega

/-- CALL with none left (60_exceptions.md R172). -/
theorem exec_call_overflow (h : s.sp = 15#8) :
    exec (.call nnn) s = s.raise .stackOverflow (encode (.call nnn)) := if_pos h

end Stack

/-- Settles O11: the equation of SYS. -/
theorem sysIsNoOperation : Obligations.SysIsNoOperation := exec_sys

/-- Settles O13: the sum of a 12-bit address and a byte needs no reduction. -/
theorem indexedJumpAddsV0 : Obligations.IndexedJumpAddsV0 := fun nnn s =>
  ⟨_, exec_jpV0 nnn s, indexedTarget_toNat nnn (s.reg 0), fun _ _ => rfl, ⟨rfl, fun _ => rfl⟩, rfl⟩

/-- Settles O14: below depth 15 the slot above the top exists, and it alone is written. -/
theorem callPushesTheReturnAddress : Obligations.CallPushesTheReturnAddress := by
  intro nnn s hsp
  let k : Nib := ⟨s.sp.toNat + 1, by omega⟩
  refine ⟨_, k, exec_call_of_slot (k := k) rfl, rfl, toNat_add_one s.sp (by omega), ?top, fun j hj => ?others,
    extAddr_toNat nnn, fun _ _ => rfl, rfl⟩
  case top => simp
  case others => simp [hj]

/-- Settles O15: one read of the top slot. -/
theorem returnPopsTheTopSlot : Obligations.ReturnPopsTheTopSlot := by
  intro s k hk h0
  refine ⟨_, exec_ret_of_slot hk h0, rfl, ?sp, fun _ => rfl, fun _ _ => rfl, rfl⟩
  case sp =>
    have hpos : k.val ≠ 0 := fun e => h0 (Fin.ext e)
    have hsp : s.sp ≠ 0#8 := fun e => hpos (hk.symm.trans (congrArg BitVec.toNat e))
    rw [State.setOutcome_sp, State.setSp_sp, toNat_sub_one _ hsp]
    omega

/-- Settles O16: the slot the call wrote is the one the return reads. -/
theorem returnUndoesTheCall : Obligations.ReturnUndoesTheCall := by
  intro nnn s t u hsp hcall husp hslots
  let k : Nib := ⟨s.sp.toNat + 1, by omega⟩
  have h0 : k ≠ 0 := fun e => Nat.succ_ne_zero _ (congrArg Fin.val e)
  cases (exec_call_of_slot (k := k) rfl).symm.trans hcall
  have husp : u.sp = s.sp + 1#8 := husp
  have hk : u.sp.toNat = k.val := (congrArg BitVec.toNat husp).trans (toNat_add_one s.sp (by omega))
  refine ⟨_, exec_ret_of_slot hk h0, ?pc, ?sp⟩
  case pc => simpa using hslots k
  case sp => rw [State.setOutcome_sp, State.setSp_sp, husp, BitVec.add_sub_cancel]

/-- Settles O17: both ends of the stack are tested first. -/
theorem stackFaultsHalt : Obligations.StackFaultsHalt :=
  ⟨fun _ s h => ⟨_, rfl, rfl, s.instrAddr_add, exec_call_overflow h⟩,
    fun s h => ⟨_, rfl, rfl, s.instrAddr_add, exec_ret_underflow h⟩⟩

/-- Settles O19: both skips go by the same comparison, SNE by its negation. -/
theorem registerSkipsAreComplements : Obligations.RegisterSkipsAreComplements := by
  intro x y s A hpc
  refine ⟨_, _, exec_seReg x y s, exec_sneReg x y s, ?se, ?sne, fun hxy => ?same, ?seRegs, ?sneRegs, rfl, rfl⟩
  case se => simp [State.skipIf_pc_of_advanced hpc]
  case sne => by_cases heq : s.reg x = s.reg y <;> simp [State.skipIf_pc_of_advanced hpc, heq]
  case same => simp [State.skipIf_pc_of_advanced hpc, hxy]
  case seRegs | sneRegs => intro r _; simp

/-! ### Flags and results together -/

section Exact
variable (p q : Byte)

/-- The carry is the ninth bit of the sum (41_alu.md R134). -/
theorem carryFlag_exact : 256 * (flagByte (carryFlag p q)).toNat + (p + q).toNat = p.toNat + q.toNat := by
  rw [flagByte_carryFlag]
  split <;> bv_omega

/-- With the flag set the difference is exact (41_alu.md R134). -/
theorem greaterFlag_exact (h : flagByte (greaterFlag p q) = 1#8) : (p - q).toNat + q.toNat = p.toNat := by
  rw [flagByte_greaterFlag] at h
  split at h
  · bv_omega
  · cases h

end Exact

/-- Settles O26: each flag is the bit that the result loses. -/
theorem flagAndResultAreExact : Obligations.FlagAndResultAreExact := by
  intro x y s hx
  refine ⟨fun t h => ?add, fun t h hF => ?sub, fun t h hF => ?subn, fun t h => ?shr, fun t h => ?shl⟩
  case add =>
    cases (exec_addReg x y s).symm.trans h
    rw [writeFlagged_reg_VF hx, writeFlagged_reg_dest, carryFlag_exact]
  case sub =>
    cases (exec_sub x y s).symm.trans h
    rw [writeFlagged_reg_VF hx] at hF
    rw [writeFlagged_reg_dest, greaterFlag_exact _ _ hF]
  case subn =>
    cases (exec_subn x y s).symm.trans h
    rw [writeFlagged_reg_VF hx] at hF
    rw [writeFlagged_reg_dest, greaterFlag_exact _ _ hF]
  case shr =>
    cases (exec_shr x s).symm.trans h
    rw [writeFlagged_reg_VF hx, writeFlagged_reg_dest, flagByte_lowBitFlag_toNat, toNat_shiftRight_one]
    omega
  case shl =>
    have hb := (s.reg x).isLt
    cases (exec_shl x s).symm.trans h
    rw [writeFlagged_reg_VF hx, writeFlagged_reg_dest, flagByte_highBitFlag_toNat, toNat_shiftLeft_one]
    omega

/-- Settles O27: the drawn byte is the free one at the count of draws, whatever it is. -/
theorem randomByteIsMasked : Obligations.RandomByteIsMasked := by
  intro x kk s
  refine ⟨_, exec_rnd x kk s, ?byte, fun k hk => ?bit, rfl, keepsRegsBut_setReg (o := none), rfl⟩
  case byte => exact setReg_reg_dest (o := none)
  case bit => simp [hk]

/-! ### The index register and memory -/

/-- Settles O29: a 16-bit sum, and the product of `glyphAddress_toNat`. -/
theorem indexArithmetic : Obligations.IndexArithmetic := by
  intro x s
  refine ⟨_, _, exec_addI x s, exec_ldF x s, ?sum, glyphAddress_toNat (s.reg x), fun _ _ => rfl, fun _ _ => rfl, rfl, rfl⟩
  case sum => rw [State.setOutcome_I, State.setI_I, BitVec.toNat_add, extByte_toNat]

/-- After a store of V0 to Vx each of them is at its own address, whatever number resolves to it (42_index_memory.md
R144). -/
theorem readByte_of_stored {x r : Nib} {s t : State} (h : exec (.ldMemVx x) s = .next t) (hr : r ≤ x) {a : Nat}
    (ha : resolve a = resolve (s.ea r.val)) : t.readByte a = s.reg r := by
  cases (exec_ldMemVx x s).symm.trans h
  rw [State.setOutcome_readByte, State.readByte, ha]
  exact s.storeRegs_readByte (regsUpTo x) (regsUpTo_nodup x) r ((mem_regsUpTo x r).mpr hr)

/-- A store keeps the index register (42_index_memory.md R146). -/
theorem I_of_stored {x : Nib} {s t : State} (h : exec (.ldMemVx x) s = .next t) : t.I = s.I := by
  cases (exec_ldMemVx x s).symm.trans h
  exact State.storeRegs_I ..

/-- Settles O10: the fetch reads the two bytes at the addresses the registers were stored to. -/
theorem storeIsSeenByTheNextFetch : Obligations.StoreIsSeenByTheNextFetch := by
  intro x r q s t h hq hqr hpc
  have hr : r ≤ x := by
    rw [Fin.le_def] at hq ⊢
    omega
  have hhigh : t.readByte t.pc.toNat = s.reg r := readByte_of_stored h hr hpc
  have hlow : t.readByte (t.pc.toNat + 1) = s.reg q := by
    refine readByte_of_stored h hq ?_
    simp only [resolve, Config.memSize, State.ea, hqr]
    omega
  rw [State.fetchWord_eq, hhigh, hlow, wordOfBytes]

/-- After a load of V0 to Vx each of them holds the byte at its own address (42_index_memory.md R145). -/
theorem reg_of_loaded {x r : Nib} {s t : State} (h : exec (.ldVxMem x) s = .next t) (hr : r ≤ x) :
    t.reg r = s.readByte (s.ea r.val) := by
  cases (exec_ldVxMem x s).symm.trans h
  rw [State.setOutcome_reg, State.loadRegs_reg, if_pos ((mem_regsUpTo x r).mpr hr)]

/-- Settles O33: the load reads what the store left at the same addresses. -/
theorem loadAfterStoreRestores : Obligations.LoadAfterStoreRestores := by
  intro x s t u h hmem hI
  refine ⟨_, exec_ldVxMem x u, fun r hr => ?_⟩
  have hea : u.ea r.val = s.ea r.val := by rw [State.ea, hI, I_of_stored h, State.ea]
  have hbyte : u.readByte (s.ea r.val) = t.readByte (s.ea r.val) := congrArg (Memory.read · _) hmem
  rw [reg_of_loaded (exec_ldVxMem x u) hr, hea, hbyte, readByte_of_stored h hr rfl]

/-- The glyph lookup gives the five bytes of the digit's row (20_memory.md R53). -/
theorem glyphLookup_eq (d : Nib) :
    glyphLookup d.val = some ([0, 1, 2, 3, 4].map fun r => (glyphs.getD d.val []).getD r 0#8) := by
  revert d
  decide

/-- Settles O34: LD F points at five times the digit, where the untouched glyph region holds its row. -/
theorem glyphBytesAreReachable : Obligations.GlyphBytesAreReachable := by
  intro s d hd hglyphs
  have hdigit : (s.reg 0).toNat = d.val := by rw [hd, ← nibByte, nibByte_toNat]
  obtain ⟨t, ht, hI, hmem⟩ : ∃ t, exec (.ldF 0) s = .next t ∧ t.I.toNat = 5 * d.val ∧ KeepsMemory s t :=
    ⟨_, exec_ldF 0 s, hdigit ▸ glyphAddress_toNat (s.reg 0), fun _ => rfl⟩
  obtain ⟨u, hu⟩ : ∃ u, exec (.ldVxMem 4) t = .next u := ⟨_, exec_ldVxMem 4 t⟩
  have hrow : ∀ r : Nib, r ≤ 4 → u.reg r = (glyphs.getD d.val []).getD r.val 0#8 := by
    intro r hr
    have hr' : r.val < 5 := Nat.lt_succ_of_le hr
    rw [reg_of_loaded hu hr, State.ea, hI, hmem, hglyphs _ (by omega), reset_readByte_glyph _ _ d.isLt hr']
  refine ⟨t, u, ht, hu, ?_⟩
  rw [hrow 0 (by decide), hrow 1 (by decide), hrow 2 (by decide), hrow 3 (by decide), hrow 4 (by decide)]
  exact glyphLookup_eq d

/-! ### Keys and timers -/

section Keys
variable {x k : Nib} {s : State}

/-- SKP of a key number 0 to 15 (44_keypad_timers.md R160). -/
theorem exec_skp_of_key (hk : (s.reg x).toNat = k.val) :
    exec (.skp x) s = (s.skipIf (s.key k)).finish false := by
  simp only [exec, execSkp, (keyNumber_eq_some _ _).mpr hk]

/-- SKNP of a key number 0 to 15 (44_keypad_timers.md R161). -/
theorem exec_sknp_of_key (hk : (s.reg x).toNat = k.val) :
    exec (.sknp x) s = (s.skipIf (!s.key k)).finish false := by
  simp only [exec, execSknp, (keyNumber_eq_some _ _).mpr hk]

/-- SKP of a number above 15 (60_exceptions.md R174). -/
theorem exec_skp_above (h : 15 < (s.reg x).toNat) :
    exec (.skp x) s = s.raise .keyIndexOutOfRange (encode (.skp x)) := by
  simp only [exec, execSkp, (keyNumber_eq_none _).mpr h]

/-- SKNP of a number above 15 (60_exceptions.md R174). -/
theorem exec_sknp_above (h : 15 < (s.reg x).toNat) :
    exec (.sknp x) s = s.raise .keyIndexOutOfRange (encode (.sknp x)) := by
  simp only [exec, execSknp, (keyNumber_eq_none _).mpr h]

/-- LD Vx, K with a key down (44_keypad_timers.md R162). -/
theorem exec_ldVxK_of_key (hk : s.firstKey = some k) :
    exec (.ldVxK x) s = (s.setReg x (nibByte k)).finish false := by
  simp only [exec, execLdVxK, hk]

/-- LD Vx, K with every key up (44_keypad_timers.md R162). -/
theorem exec_ldVxK_of_none (h : s.firstKey = none) : exec (.ldVxK x) s = (s.setPhase (.waitKey x)).wait := by
  simp only [exec, execLdVxK, h]

/-- A poll with a key down (44_keypad_timers.md R163). -/
theorem poll_of_key (hk : s.firstKey = some k) :
    poll x s = ((s.setReg x (nibByte k)).setPhase .ready).finish false := by
  simp only [poll, hk]

/-- A poll with every key up (44_keypad_timers.md R163). -/
theorem poll_of_none (h : s.firstKey = none) : poll x s = s.wait := by
  simp only [poll, h]

/-- With no flag set there is no key to take (44_keypad_timers.md R167). -/
theorem firstKey_of_keys_zero (h : s.keys = 0#16) : s.firstKey = none :=
  s.firstKey_eq_none.mpr fun k => by rw [State.key, h, BitVec.getLsbD_zero]

/-- The register that takes a key holds its number (44_keypad_timers.md R162). -/
theorem setReg_nibByte_toNat : ((s.setReg x (nibByte k)).reg x).toNat = k.val := by
  rw [State.setReg_reg, if_pos rfl, nibByte_toNat]

end Keys

/-- Settles O39: both skips test the same flag, SKNP its negation. -/
theorem keySkipsAreComplements : Obligations.KeySkipsAreComplements := by
  intro x s A k hpc hk
  refine ⟨_, _, exec_skp_of_key hk, exec_sknp_of_key hk, s.skipIf_pc_of_advanced hpc _, ?sknp, ?skpRegs, ?sknpRegs,
    rfl, rfl⟩
  case sknp =>
    refine (State.skipIf_pc_of_advanced hpc _).trans ?_
    cases h : s.key k <;> simp_all [State.key]
  case skpRegs | sknpRegs => intro r _; simp

/-- Settles O40: no key has a number above 15. -/
theorem keyNumberAboveFifteenHalts : Obligations.KeyNumberAboveFifteenHalts := fun _ s h =>
  ⟨_, _, rfl, rfl, s.instrAddr_add, exec_skp_above h, rfl, rfl, s.instrAddr_add, exec_sknp_above h⟩

/-- Settles O41: the lowest key down is the one taken; with none the wait opens. -/
theorem keyWaitTakesTheLowestKey : Obligations.KeyWaitTakesTheLowestKey := by
  refine fun x s => ⟨fun k hk hlow => ?key, fun h => exec_ldVxK_of_none (firstKey_of_keys_zero h)⟩
  case key =>
    exact ⟨_, exec_ldVxK_of_key ((s.firstKey_eq_some k).mpr ⟨hk, hlow⟩), setReg_nibByte_toNat, keepsRegsBut_setReg,
      rfl, rfl, rfl⟩

/-- Settles O42: the poll takes the key as the wait's instruction would have. -/
theorem pollCompletesTheWait : Obligations.PollCompletesTheWait := by
  intro x s rest hnext hwait
  rw [step_of_waitKey hnext hwait]
  refine ⟨fun k hk hlow => ?key, fun h => poll_of_none (s := s.setSchedule rest) (firstKey_of_keys_zero h)⟩
  case key =>
    have hfirst : (s.setSchedule rest).firstKey = some k := (s.firstKey_eq_some k).mpr ⟨hk, hlow⟩
    exact ⟨_, poll_of_key hfirst, setReg_nibByte_toNat, keepsRegsBut_setReg (s := s.setSchedule rest) (o := none), rfl,
      fun _ => rfl, rfl, rfl, rfl⟩

/-- Settles O43: one write each, of a register or of a timer. -/
theorem timersAreReadAndLoaded : Obligations.TimersAreReadAndLoaded := fun x s =>
  ⟨_, _, _, exec_ldVxDT x s, setReg_reg_dest, keepsRegsBut_setReg, ⟨rfl, rfl⟩,
    exec_ldDTVx x s, rfl, rfl, fun _ _ => rfl, exec_ldSTVx x s, rfl, rfl, fun _ _ => rfl, rfl, rfl, rfl⟩

/-- Settles O44: each of these agents writes one field. -/
theorem environmentStepsChangeTheirOwn : Obligations.EnvironmentStepsChangeTheirOwn := fun s _ =>
  ⟨fun h => ⟨countDown s.DT, countDown_toNat s.DT, step_of_schedule h⟩,
    fun h => ⟨countDown s.ST, countDown_toNat s.ST, step_of_schedule h⟩,
    fun _ h => step_of_schedule h⟩

end Sys2Proof.Machine
end

section
/-! PROOFS. The display (43_display.md R150 to R155): the cells a sprite covers, what one draw does to the screen, and what
two do. -/

namespace Sys2Proof.Machine

/-! ### The cells of a sprite -/

/-- The cells that `Dxyn` addresses from a state (43_display.md R155: `mask(s)`). -/
def State.spriteCells (s : State) (x y n : Nib) : List Nat :=
  cellsOf s.res (spritePixels (s.reg x).toNat (s.reg y).toNat (s.spriteBytes n.val))

section Cells
variable {s t : State} {x y n : Nib}

/-- A cell of the sprite is one of its 1 bits, wrapped onto the screen (43_display.md R152). -/
theorem mem_spriteCells (c : Nat) :
    c ∈ s.spriteCells x y n ↔
      ∃ row col : Nat, row < n.val ∧ col < 8 ∧ (s.readByte (s.I.toNat + row)).getLsbD (7 - col) = true ∧
        c = cellOf s.res ((s.reg x).toNat + col) ((s.reg y).toNat + row) := by
  simp only [State.spriteCells, cellsOf, List.mem_map, mem_spritePixels, State.spriteBytes_getElem?]
  constructor
  · rintro ⟨p, ⟨row, col, byte, hbyte, hcol, hbit, rfl⟩, rfl⟩
    obtain ⟨hrow, rfl⟩ : row < n.val ∧ s.readByte (s.ea row) = byte := by simpa using hbyte
    exact ⟨row, col, hrow, hcol, hbit, rfl⟩
  · rintro ⟨row, col, hrow, hcol, hbit, rfl⟩
    exact ⟨_, ⟨row, col, _, if_pos hrow, hcol, hbit, rfl⟩, rfl⟩

/-- The sprite covers a pixel of the screen exactly when it addresses that pixel's cell (43_display.md R155 (c)). -/
theorem covers_iff {px py : Nat} (hx : px < s.res.width) (hy : py < s.res.height) :
    Covers s x y n px py ↔ cellOf s.res px py ∈ s.spriteCells x y n := by
  simp only [mem_spriteCells, Covers, cellOf_eq_iff, Nat.mod_eq_of_lt hx, Nat.mod_eq_of_lt hy]

/-- A covered pixel lies on the screen (43_display.md R150). -/
theorem Covers.on_screen {px py : Nat} (h : Covers s x y n px py) : px < s.res.width ∧ py < s.res.height := by
  obtain ⟨row, col, -, -, -, rfl, rfl⟩ := h
  exact ⟨Nat.mod_lt _ (Resolution.width_pos _), Nat.mod_lt _ (Resolution.height_pos _)⟩

/-- Every cell of the sprite is the cell of a covered pixel (43_display.md R150). -/
theorem exists_covered_pixel {c : Nat} (h : c ∈ s.spriteCells x y n) :
    ∃ px py, cellOf s.res px py = c ∧ Covers s x y n px py := by
  obtain ⟨row, col, hrow, hcol, hbit, rfl⟩ := (mem_spriteCells c).mp h
  exact ⟨_, _, (cellOf_eq_iff ..).mpr ⟨Nat.mod_mod _ _, Nat.mod_mod _ _⟩, row, col, hrow, hcol, hbit, rfl, rfl⟩

/-! ### One draw -/

/-- A draw from a state: the screen is the old one with the sprite's cells turned over, VF the collision, and the rest of
what a draw reads is as before (43_display.md R154, R155 (c)). -/
structure Drew (x y n : Nib) (s t : State) : Prop where
  lit : ∀ c, Screen.lit t.FB c = (Screen.lit s.FB c ^^ decide (c ∈ s.spriteCells x y n))
  flag : t.reg VF = flagByte ((s.spriteCells x y n).any fun c => Screen.lit s.FB c)
  regs : KeepsRegsBut [VF] s t
  mem : KeepsMemory s t
  res : t.res = s.res
  index : t.I = s.I

/-- The Operation of `Dxyn` draws (43_display.md R154). -/
theorem drew_of_exec (h : exec (.drw x y n) s = .next t) : Drew x y n s t := by
  cases (exec_drw x y n s).symm.trans h
  obtain ⟨hlit, hflag⟩ := writeSprite_spec s.res s.FB (s.reg x).toNat (s.reg y).toNat (s.spriteBytes n.val)
    (by rw [State.spriteBytes_length]; omega)
  refine ⟨hlit, ?_, keepsRegsBut_setReg (s := s.setFB _), fun _ => rfl, rfl, rfl⟩
  rw [setReg_reg_dest]
  exact congrArg flagByte hflag

/-- A draw leaves the cells of a sprite at other registers than VF where they were (43_display.md R154). -/
theorem Drew.spriteCells_eq (h : Drew x y n s t) (hx : x ≠ VF) (hy : y ≠ VF) :
    t.spriteCells x y n = s.spriteCells x y n := by
  have hbytes : t.spriteBytes n.val = s.spriteBytes n.val := by
    simp only [State.spriteBytes, State.ea, h.index, h.mem _]
  rw [State.spriteCells, State.spriteCells, hbytes, h.res, h.regs x (by simpa using hx), h.regs y (by simpa using hy)]

/-- The flag is 1 exactly when a lit cell was covered (43_display.md R155). -/
theorem Drew.flag_iff (h : Drew x y n s t) :
    t.reg VF = 1#8 ↔ ∃ c ∈ s.spriteCells x y n, Screen.lit s.FB c = true := by
  rw [h.flag, ← List.any_eq_true]
  cases (s.spriteCells x y n).any fun c => Screen.lit s.FB c <;> decide

/-- The flag is a bit (10_state.md R21). -/
theorem Drew.flag_bit (h : Drew x y n s t) : t.reg VF = 1#8 ∨ t.reg VF = 0#8 := by
  rw [h.flag]
  cases (s.spriteCells x y n).any fun c => Screen.lit s.FB c
  · exact .inr rfl
  · exact .inl rfl

/-- A lit cell of the sprite is a lit pixel that is covered, and the other way round (43_display.md R155). -/
theorem exists_lit_cell_iff :
    (∃ c ∈ s.spriteCells x y n, Screen.lit s.FB c = true) ↔
      ∃ px py, s.pixel px py = true ∧ Covers s x y n px py := by
  constructor
  · rintro ⟨c, hc, hlit⟩
    obtain ⟨px, py, rfl, hcov⟩ := exists_covered_pixel hc
    exact ⟨px, py, hlit, hcov⟩
  · rintro ⟨px, py, hlit, hcov⟩
    obtain ⟨hx, hy⟩ := hcov.on_screen
    exact ⟨_, (covers_iff hx hy).mp hcov, hlit⟩

end Cells

/-! ### The statements -/

/-- Settles O35: the empty list of lit cells. -/
theorem clearTurnsEveryPixelOff : Obligations.ClearTurnsEveryPixelOff := fun s =>
  ⟨_, exec_cls s, fun _ _ => rfl, fun _ _ => rfl, rfl⟩

/-- Settles O36: pixel and coverage both as facts about one cell. -/
theorem drawXorsTheSprite : Obligations.DrawXorsTheSprite := by
  intro x y n s
  have h := drew_of_exec (exec_drw x y n s)
  refine ⟨_, exec_drw x y n s, fun px py hx hy => ?pixel, h.flag_bit, ?flag, h.regs, h.mem, h.index, rfl⟩
  case pixel =>
    rw [covers_iff hx hy, State.pixel, h.res, h.lit, ← State.pixel]
    by_cases hc : cellOf s.res px py ∈ s.spriteCells x y n <;> simp [hc]
  case flag => rw [h.flag_iff, exists_lit_cell_iff]

/-- Settles O37: the second draw turns over the cells of the first, and collides where the first has lit them. -/
theorem drawTwiceErases : Obligations.DrawTwiceErases := by
  intro x y n s t u hx hy hfirst hsecond
  have h := drew_of_exec hfirst
  have h' := drew_of_exec hsecond
  have hcells := h.spriteCells_eq hx hy
  refine ⟨fun px py _ _ => ?restored, fun hclear => ⟨?first, ?second⟩⟩
  case restored =>
    rw [State.pixel, h'.res, h.res, h'.lit, h.lit, hcells, Bool.xor_assoc, Bool.xor_self, Bool.xor_false, ← State.pixel]
  case first =>
    refine h.flag_bit.resolve_left fun hflag => ?_
    obtain ⟨px, py, hlit, -⟩ := exists_lit_cell_iff.mp (h.flag_iff.mp hflag)
    exact Bool.false_ne_true ((hclear px py).symm.trans hlit)
  case second =>
    rw [h'.flag_iff, hcells]
    constructor
    · rintro ⟨c, hc, -⟩
      obtain ⟨px, py, -, hcov⟩ := exists_covered_pixel hc
      exact ⟨px, py, hcov⟩
    · rintro ⟨px, py, hcov⟩
      obtain ⟨hpx, hpy⟩ := hcov.on_screen
      have hc := (covers_iff hpx hpy).mp hcov
      have hoff : Screen.lit s.FB (cellOf s.res px py) = false := hclear px py
      exact ⟨_, hc, by simp [h.lit, hoff, hc]⟩

end Sys2Proof.Machine
end

section
/-! PROOFS. Stack slot 0 (10_state.md R25): no step but a reset writes it, and no instruction reads it. -/

namespace Sys2Proof.Machine

/-! ### Operations that do not see the stack -/

section Commute
variable (s : State) (k : Nib) (w : Word)

theorem State.skipIf_setSlot (c : Bool) : (s.setSlot k w).skipIf c = (s.skipIf c).setSlot k w := by
  cases c <;> rfl

theorem State.writeBytes_setSlot (a : Nat) (bs : List Byte) :
    (s.setSlot k w).writeBytes a bs = (s.writeBytes a bs).setSlot k w := by
  induction bs generalizing s a with
  | nil => rfl
  | cons b bs ih => exact ih (s.writeByte a b) (a + 1)

theorem State.storeRegs_setSlot (l : List Nib) : (s.setSlot k w).storeRegs l = (s.storeRegs l).setSlot k w := by
  induction l generalizing s with
  | nil => rfl
  | cons r l ih => exact ih (s.writeByte (s.ea r.val) (s.reg r))

theorem State.loadRegs_setSlot (l : List Nib) : (s.setSlot k w).loadRegs l = (s.loadRegs l).setSlot k w := by
  induction l generalizing s with
  | nil => rfl
  | cons r l ih => exact ih (s.setReg r (s.readByte (s.ea r.val)))

/-- Writes to two slots commute. -/
theorem State.setSlot_comm {j : Nib} (h : j ≠ k) (v : Word) :
    (s.setSlot k w).setSlot j v = (s.setSlot j v).setSlot k w :=
  congrArg (fun st => { s with stack := st }) (Vector.set_comm w v fun e => h (Fin.ext e.symm))

end Commute

/-! ### Instructions with another value in slot 0 -/

section Slot
variable {s t : State} {w : Word}

theorem exec_ret_setSlot_zero (h : exec .ret s = .next t) : exec .ret (s.setSlot 0 w) = .next (t.setSlot 0 w) := by
  rcases execRet_cases s with ⟨hz, h'⟩ | ⟨k, hz, hk, h'⟩ | ⟨-, h'⟩ <;> cases h'.symm.trans h
  · exact exec_ret_underflow (s := s.setSlot 0 w) hz
  · have h0 : k ≠ 0 := fun e => hz (BitVec.eq_of_toNat_eq (hk.trans (congrArg Fin.val e)))
    rw [exec_ret_of_slot (s := s.setSlot 0 w) hk h0, State.setSlot_slot, if_neg h0]
    rfl

theorem exec_call_setSlot_zero {nnn : Addr12} (h : exec (.call nnn) s = .next t) :
    exec (.call nnn) (s.setSlot 0 w) = .next (t.setSlot 0 w) := by
  rcases execCall_cases nnn s with ⟨h15, h'⟩ | ⟨k, -, hk, h'⟩ | ⟨-, h'⟩ <;> cases h'.symm.trans h
  · exact exec_call_overflow (s := s.setSlot 0 w) h15
  · have h0 : k ≠ 0 := fun e => Nat.succ_ne_zero _ (hk.trans (congrArg Fin.val e))
    rw [exec_call_of_slot (s := s.setSlot 0 w) hk]
    exact congrArg (fun u : State => (u.setPc (extAddr nnn)).finish false)
      ((s.setSp (s.sp + 1#8)).setSlot_comm 0 w h0 s.pc)

theorem exec_skp_setSlot_zero {x : Nib} (h : exec (.skp x) s = .next t) :
    exec (.skp x) (s.setSlot 0 w) = .next (t.setSlot 0 w) := by
  rcases execSkp_cases x s with ⟨hx, h'⟩ | ⟨k, hk, h'⟩ <;> cases h'.symm.trans h
  · exact exec_skp_above (s := s.setSlot 0 w) hx
  · rw [exec_skp_of_key (s := s.setSlot 0 w) hk, State.skipIf_setSlot]
    rfl

theorem exec_sknp_setSlot_zero {x : Nib} (h : exec (.sknp x) s = .next t) :
    exec (.sknp x) (s.setSlot 0 w) = .next (t.setSlot 0 w) := by
  rcases execSknp_cases x s with ⟨hx, h'⟩ | ⟨k, hk, h'⟩ <;> cases h'.symm.trans h
  · exact exec_sknp_above (s := s.setSlot 0 w) hx
  · rw [exec_sknp_of_key (s := s.setSlot 0 w) hk, State.skipIf_setSlot]
    rfl

theorem exec_ldVxK_setSlot_zero {x : Nib} (h : exec (.ldVxK x) s = .next t) :
    exec (.ldVxK x) (s.setSlot 0 w) = .next (t.setSlot 0 w) := by
  rcases execLdVxK_cases x s with ⟨k, hk, h'⟩ | ⟨hk, h'⟩ <;> cases h'.symm.trans h
  · exact exec_ldVxK_of_key (s := s.setSlot 0 w) hk
  · exact exec_ldVxK_of_none (s := s.setSlot 0 w) hk

/-- An instruction that always completes, with an effect that commutes with a write to slot 0. -/
theorem setSlot_zero_of_completes {i : Instr} {F : State → State} {b : Bool} (hexec : ∀ s, exec i s = (F s).finish b)
    (hF : F (s.setSlot 0 w) = (F s).setSlot 0 w) (h : exec i s = .next t) :
    exec i (s.setSlot 0 w) = .next (t.setSlot 0 w) := by
  cases (hexec s).symm.trans h
  rw [hexec, hF]
  rfl

/-- No instruction reads slot 0: with another value there, the state after differs in it alone (10_state.md R25). -/
theorem exec_setSlot_zero (i : Instr) (h : exec i s = .next t) : exec i (s.setSlot 0 w) = .next (t.setSlot 0 w) := by
  cases i
  case ret => exact exec_ret_setSlot_zero h
  case call => exact exec_call_setSlot_zero h
  case skp => exact exec_skp_setSlot_zero h
  case sknp => exact exec_sknp_setSlot_zero h
  case ldVxK => exact exec_ldVxK_setSlot_zero h
  case seImm x kk => exact setSlot_zero_of_completes (exec_seImm x kk) (s.skipIf_setSlot 0 w _) h
  case sneImm x kk => exact setSlot_zero_of_completes (exec_sneImm x kk) (s.skipIf_setSlot 0 w _) h
  case seReg x y => exact setSlot_zero_of_completes (exec_seReg x y) (s.skipIf_setSlot 0 w _) h
  case sneReg x y => exact setSlot_zero_of_completes (exec_sneReg x y) (s.skipIf_setSlot 0 w _) h
  case ldB x => exact setSlot_zero_of_completes (exec_ldB x) (s.writeBytes_setSlot 0 w _ _) h
  case ldMemVx x => exact setSlot_zero_of_completes (exec_ldMemVx x) (s.storeRegs_setSlot 0 w _) h
  case ldVxMem x => exact setSlot_zero_of_completes (exec_ldVxMem x) (s.loadRegs_setSlot 0 w _) h
  -- The others write one field of the state, from registers and memory.
  all_goals
    cases h
    rfl

end Slot

/-- An instruction keeps slot 0 (10_state.md R25). -/
theorem slot_zero_of_exec {i : Instr} {s t : State} (h : exec i s = .next t) : t.slot 0 = s.slot 0 := by
  rcases exec_next_cases h with ⟨u, hu, rfl⟩ | ⟨x, -, rfl⟩ | ⟨kind, -, rfl⟩
  · exact hu.slot_zero
  · rfl
  · rfl

/-- A poll keeps slot 0. -/
theorem slot_zero_of_poll {x : Nib} {s t : State} (h : poll x s = .next t) : t.slot 0 = s.slot 0 := by
  rcases poll_cases x s with ⟨k, -, h'⟩ | ⟨-, h'⟩ <;> cases h'.symm.trans h <;> rfl

/-- A load keeps slot 0: it writes memory. -/
theorem slot_zero_of_load {bytes : List Byte} {s t : State} (h : s.hostLoad bytes = .next t) : t.slot 0 = s.slot 0 := by
  obtain ⟨-, -, -, -, rfl⟩ := hostLoad_next h
  rw [State.writeBytes_frame]
  rfl

/-- Settles O58: a call pushes above slot 0, a return with `sp = 0` faults, and no other operation sees the stack. -/
theorem stackSlotZeroIsNeverUsed : Obligations.StackSlotZeroIsNeverUsed := by
  refine ⟨fun s t hstep => ?_, fun i s t w h => exec_setSlot_zero i h⟩
  rcases step_cases s with ⟨rest, -, ⟨-, i, -, h⟩ | ⟨-, -, h⟩ | ⟨x, -, h⟩ | ⟨f, -, h⟩⟩ | ⟨rest, -, h⟩ |
    ⟨rest, -, h⟩ | ⟨rest, k, -, h⟩ | ⟨rest, hs, -⟩ | ⟨rest, bytes, -, h⟩
  · -- The ENGINE in READY, an instruction.
    exact .inl (slot_zero_of_exec (s := (s.setSchedule rest).advance) (h.symm.trans hstep))
  · -- The ENGINE in READY, an illegal word.
    cases h.symm.trans hstep
    exact .inl rfl
  · -- The ENGINE in WAITKEY.
    exact .inl (slot_zero_of_poll (s := s.setSchedule rest) (h.symm.trans hstep))
  · -- The ENGINE in HALTED has no step.
    cases h.symm.trans hstep
  · -- The delay timer's tick.
    cases h.symm.trans hstep
    exact .inl rfl
  · -- The sound timer's tick.
    cases h.symm.trans hstep
    exact .inl rfl
  · -- New keys.
    cases h.symm.trans hstep
    exact .inl rfl
  · -- Reset.
    exact .inr ⟨rest, hs⟩
  · -- Load.
    exact .inl (slot_zero_of_load (s := s.setSchedule rest) (h.symm.trans hstep))

end Sys2Proof.Machine
end
